-- ==== Sys2Proof/Word.lean ====
section
/-! DEFINITION. The word types of the PDM front end (spec/00_scope.md R8, R9; spec/30_encoding.md R50). -/

namespace Sys2Proof

/-- A 32-bit word: an operand, a data word, a control register, a store element (R8, R9, R42, R50). -/
abbrev Word := BitVec 32

/-- A PDM byte or an opcode byte (`u8`, R8). -/
abbrev Byte := BitVec 8

/-- A PCM sample, the source's "int16" (`i16`, R8). -/
abbrev Sample := BitVec 16

/-- A command word, `op[39:32] : a[31:0]` (R50). -/
abbrev CommandWord := BitVec 40

end Sys2Proof
end

