-- ==== Sys2Proof/Syntax.lean ====
section
/-! DEFINITION. The fourteen commands (spec/30_encoding.md R57), each with its operand as R51 reads it. -/

namespace Sys2Proof

/-- A command of the block, one constructor per row of the opcode map (R57). A `none` operand is not carried;
an `s32`, `f32` or `idx` operand is the whole 32-bit word; a `u8` operand is the byte (R51). -/
inductive Instr where
  /-- Tear the filter down (R70). -/
  | clr
  /-- Stage the filter length `LEN` (R71). -/
  | setlen (n : Word)
  /-- Stage the decimation factor `FACTOR` (R72). -/
  | setfac (n : Word)
  /-- Load the next coefficient (R73). -/
  | ldc (v : Word)
  /-- Validate the staged configuration and become Ready (R74). -/
  | init
  /-- Filter one sample (R81). -/
  | apply (x : Word)
  /-- Expand one PDM byte into eight samples (R89). -/
  | unpk (b : Byte)
  /-- Start a new decimation frame (R93). -/
  | dsync
  /-- Feed one sample to the decimator (R95). -/
  | dec (x : Word)
  /-- Quantize one sample (R98). -/
  | qnt (x : Word)
  /-- Convert one PDM byte: unpack, filter, decimate, quantize (R102). -/
  | conv (b : Byte)
  /-- Read a control register (R107). -/
  | rds (r : Word)
  /-- Read a coefficient (R109). -/
  | rdc (i : Word)
  /-- Read a delay-line element (R110). -/
  | rdd (i : Word)
deriving DecidableEq, Repr

end Sys2Proof
end

