-- ==== Sys2Proof/WellFormed.lean ====
section
/-! DEFINITION. The opcode map as a table (spec/30_encoding.md R57) and the checks on operands, command words
and instructions (R51, R54, R56, R58). The decoder of Decode.lean does not read this table: that the two agree
is a statement. -/

namespace Sys2Proof

/-- How a command reads its operand word (R51). -/
inductive OperandKind where
  | none
  | s32
  | f32
  | u8
  | idx
deriving DecidableEq, Repr

/-- The operand words a kind admits (R51, R56): a `none` operand is zero, a `u8` operand has bits 31 to 8
zero, the other kinds admit every word. -/
def OperandKind.admits (k : OperandKind) (a : Word) : Bool :=
  match k with
  | .none => a == 0
  | .u8 => a.extractLsb' 8 24 == 0
  | .s32 => true
  | .f32 => true
  | .idx => true

/-- One row of the opcode map (R57): a word `w` selects the row when `w & mask = pattern`. -/
structure OpcodeRow where
  mnemonic : String
  kind : OperandKind
  pattern : CommandWord
  mask : CommandWord
deriving DecidableEq, Repr

/-- R57: a word `w` selects the row when `w & mask = match`. -/
def OpcodeRow.selects (r : OpcodeRow) (w : CommandWord) : Bool := w &&& r.mask == r.pattern

/-- The row of each command in the opcode map, transcribed from the table of R57. -/
def Instr.row : Instr → OpcodeRow
  | .clr => ⟨"CLR", .none, 0x0100000000, 0xFFFFFFFFFF⟩
  | .setlen _ => ⟨"SETLEN", .s32, 0x0200000000, 0xFF00000000⟩
  | .setfac _ => ⟨"SETFAC", .s32, 0x0300000000, 0xFF00000000⟩
  | .ldc _ => ⟨"LDC", .f32, 0x0400000000, 0xFF00000000⟩
  | .init => ⟨"INIT", .none, 0x0500000000, 0xFFFFFFFFFF⟩
  | .apply _ => ⟨"APPLY", .f32, 0x1000000000, 0xFF00000000⟩
  | .unpk _ => ⟨"UNPK", .u8, 0x2000000000, 0xFFFFFFFF00⟩
  | .dsync => ⟨"DSYNC", .none, 0x3000000000, 0xFFFFFFFFFF⟩
  | .dec _ => ⟨"DEC", .f32, 0x3100000000, 0xFF00000000⟩
  | .qnt _ => ⟨"QNT", .f32, 0x3200000000, 0xFF00000000⟩
  | .conv _ => ⟨"CONV", .u8, 0x4000000000, 0xFFFFFFFF00⟩
  | .rds _ => ⟨"RDS", .idx, 0x5000000000, 0xFF00000000⟩
  | .rdc _ => ⟨"RDC", .idx, 0x5100000000, 0xFF00000000⟩
  | .rdd _ => ⟨"RDD", .idx, 0x5200000000, 0xFF00000000⟩

/-- The whole opcode map (R57): fourteen rows. -/
def opcodeTable : List OpcodeRow :=
  [Instr.clr, .setlen 0, .setfac 0, .ldc 0, .init, .apply 0, .unpk 0, .dsync, .dec 0, .qnt 0, .conv 0,
    .rds 0, .rdc 0, .rdd 0].map Instr.row

/-- A command word is legal when it selects a row of the opcode map (R57, R58). -/
def legalWord (w : CommandWord) : Bool := opcodeTable.any fun r => r.selects w

/-- The 32-bit operand word `a` of a command (R51, R62): zero for `none`, the byte zero-extended for `u8`. -/
def Instr.operandWord : Instr → Word
  | .clr => 0
  | .setlen n => n
  | .setfac n => n
  | .ldc v => v
  | .init => 0
  | .apply x => x
  | .unpk b => b.setWidth 32
  | .dsync => 0
  | .dec x => x
  | .qnt x => x
  | .conv b => b.setWidth 32
  | .rds r => r
  | .rdc i => i
  | .rdd i => i

/-- A command is well formed when its operand word is one its row's kind admits (R51, R56). The operand types of
`Instr` already say so (a `none` operand is not carried, a `u8` operand is a byte), so every term passes; the
checks that can refuse are `OperandKind.admits` on an operand word and `legalWord` on a command word. -/
def Instr.wf (i : Instr) : Bool := i.row.kind.admits i.operandWord

end Sys2Proof
end

