-- ==== Sys2Proof/Decode.lean ====
section
/-! DEFINITION. The decoder, total on the 2^40 command words and refusing by name, and the encoder
(spec/30_encoding.md R50, R51, R54 to R58, R62). -/

namespace Sys2Proof

/-- Why a command word is illegal (R54, R58). -/
inductive IllegalWord where
  /-- The opcode byte is none of the fourteen (R54 step 1). -/
  | unknownOpcode (op : Byte)
  /-- A must-be-zero operand bit is set (R54 step 2, R56). -/
  | reservedOperandBits (op : Byte) (a : Word)
deriving DecidableEq, Repr

/-- `op = cmd[39:32]` (R50). -/
def opcodeField (w : CommandWord) : Byte := w.extractLsb' 32 8

/-- `a = cmd[31:0]` (R50). -/
def operandField (w : CommandWord) : Word := w.extractLsb' 0 32

/-- Decode a command whose operand kind is `none` (R51, R54 step 2). -/
def decodeNone (op : Byte) (a : Word) (i : Instr) : Except IllegalWord Instr :=
  if a = 0 then .ok i else .error (.reservedOperandBits op a)

/-- Decode a command whose operand kind is `u8`: the byte is `a[7:0]` and `a[31:8]` must be zero
(R51, R54 step 2). -/
def decodeByte (op : Byte) (a : Word) (i : Byte → Instr) : Except IllegalWord Instr :=
  if a.extractLsb' 8 24 = 0 then .ok (i (a.extractLsb' 0 8)) else .error (.reservedOperandBits op a)

/-- Steps 1 and 2 of R54 on the two fields of a command word. -/
def decodeFields (op : Byte) (a : Word) : Except IllegalWord Instr :=
  match op.toNat with
  | 0x01 => decodeNone op a .clr
  | 0x02 => .ok (.setlen a)
  | 0x03 => .ok (.setfac a)
  | 0x04 => .ok (.ldc a)
  | 0x05 => decodeNone op a .init
  | 0x10 => .ok (.apply a)
  | 0x20 => decodeByte op a .unpk
  | 0x30 => decodeNone op a .dsync
  | 0x31 => .ok (.dec a)
  | 0x32 => .ok (.qnt a)
  | 0x40 => decodeByte op a .conv
  | 0x50 => .ok (.rds a)
  | 0x51 => .ok (.rdc a)
  | 0x52 => .ok (.rdd a)
  | _ => .error (.unknownOpcode op)

/-- Decoding is total and reads the word alone, not the state (R54). -/
def decode (w : CommandWord) : Except IllegalWord Instr := decodeFields (opcodeField w) (operandField w)

/-- `cmd = op : a` (R50, R62). -/
def commandWord (op : Byte) (a : Word) : CommandWord := op ++ a

/-- The command word of a command (R57, R62). -/
def encode : Instr → CommandWord
  | .clr => commandWord 0x01 0
  | .setlen n => commandWord 0x02 n
  | .setfac n => commandWord 0x03 n
  | .ldc v => commandWord 0x04 v
  | .init => commandWord 0x05 0
  | .apply x => commandWord 0x10 x
  | .unpk b => commandWord 0x20 (b.setWidth 32)
  | .dsync => commandWord 0x30 0
  | .dec x => commandWord 0x31 x
  | .qnt x => commandWord 0x32 x
  | .conv b => commandWord 0x40 (b.setWidth 32)
  | .rds r => commandWord 0x50 r
  | .rdc i => commandWord 0x51 i
  | .rdd i => commandWord 0x52 i

/-- A command word from its bits as the opcode table numbers them: bit 0 is the least significant of the 40
(R7, R50); bits at and above `nbits` are zero. A command word moves whole, so no byte order is involved
(R41). -/
def tableWord (nbits w : Nat) : CommandWord := BitVec.ofNat 40 (w % 2 ^ nbits)

/-- The instruction the decoder reads from the word whose bits are `w`. -/
def decodeTableWord (nbits w : Nat) : Option Instr := (decode (tableWord nbits w)).toOption

end Sys2Proof
end

