-- ==== Sys2Proof/Config.lean ====
section
/-! DEFINITION. What an instance of the block fixes, and the free values: constants with no body, so that a
proof holds whatever they are (spec/00_scope.md R4, R16; spec/93_implementation_defined.md U5, U7). -/

namespace Sys2Proof

/-- `MAXTAPS - 1` of the instance. No body: the spec leaves `MAXTAPS` open (R4, U7). The type says
`1 <= MAXTAPS` (R4) and `MAXTAPS < 2^32`, which R29 implies (log 1, log 2). -/
opaque Config.maxTapsLessOne : Fin 4294967295

/-- `MAXTAPS`, the number of elements of each store (R4, R29). -/
def Config.maxTaps : Nat := Config.maxTapsLessOne.val + 1

/-- The sign of the `n`-th NaN word drawn. Free: R16 does not fix it (log 3). -/
opaque Config.freeNaNSign : Nat → Bool

/-- The fraction, less one, of the `n`-th NaN word drawn. Free: R16 does not fix it (log 3). -/
opaque Config.freeNaNFraction : Nat → Fin 8388607

/-- The `n`-th NaN word drawn: exponent 255 and a non-zero fraction (R10), all else free (R16, U5, log 3).
Every NaN word is the value of this for some sign and fraction, and nothing but a NaN word is. -/
def Config.freeNaN (n : Nat) : Word :=
  (BitVec.ofBool (Config.freeNaNSign n) ++ 0xFF#8) ++ BitVec.ofNat 23 ((Config.freeNaNFraction n).val + 1)

end Sys2Proof
end

