-- ==== Sys2Proof/Machine/State.lean ====
section
/-! DEFINITION. The state of one block instance and of the host's side of its interface, as plain data
(spec/10_state.md R20 to R35; spec/30_encoding.md R50, R52; spec/60_exceptions.md R112). -/

namespace Sys2Proof.Machine

/-- `STATE`: 0 is Uninitialized, 1 is Ready (R24). -/
inductive LifeState where
  | uninitialized
  | ready
deriving DecidableEq, Repr

/-- The status of a response (R112). Values 8 to 15 are never produced. -/
inductive Status where
  /-- 0: the command did what its rule says. -/
  | ok
  /-- 1: unknown opcode, or a must-be-zero operand bit set (R114). -/
  | eIllegal
  /-- 2: command issued in the wrong state (R115). -/
  | eState
  /-- 3: `LEN < 1` or `FACTOR < 1` at INIT (R116). -/
  | eConfig
  /-- 4: coefficient store full, or `LEN > MAXTAPS` (R117). -/
  | eResource
  /-- 5: `CPTR != LEN` at INIT (R118). -/
  | eArg
  /-- 6: index outside the readable range (R119). -/
  | eRange
  /-- 7: a NaN reached the quantizer (R120). -/
  | eNan
deriving DecidableEq, Repr

/-- What the block returns for one command: a status and the data words, first emitted first (R52). -/
structure Response where
  status : Status
  data : List Word
deriving DecidableEq, Repr

/-- What the host can do to the block: present one 40-bit command word (R50), or apply a hard reset, which
happens only between commands (R128, R129; log 6). -/
inductive HostEvent where
  | command (w : CommandWord)
  | hardReset
deriving DecidableEq, Repr

/-- One of the two element stores, `COEF` or `DELAY` (R30, R31): (index, word) pairs with strictly rising
indices. An element that is not listed holds no value (R19, U6; log 7). -/
abbrev Store := List (Nat × Word)

/-- The reasons the machine can stop with a fault. -/
inductive Fault where
  /-- An element of `COEF` or `DELAY` that holds no value was read. Raised by APPLY, CONV, RDC and RDD, in no
  state that satisfies R33 and R27, hence in no state a run reaches (R19). Safe: the machine stops where the
  spec gives no value (log 7). -/
  | noValue
deriving DecidableEq, Repr

/-- The reasons the machine can refuse. -/
inductive Refusal where
  /-- Raised by an arm of `exec` whose command has no meaning yet; no arm of this model does. Safe. -/
  | notModelled (mnemonic : String)
deriving DecidableEq, Repr

/-- What ends a command's work early: the rules' `raise E_x` (R18), or the model's fault. -/
inductive Stop where
  | raise (e : Status)
  | fault (f : Fault)
deriving DecidableEq, Repr

/-- The state of one block instance (R20), its constant `MAXTAPS` (R29), the host's side of the interface
(R22, R141), and the model's counter of drawn NaN words (R16). -/
structure State where
  /-- `STATE` (R24). -/
  state : LifeState
  /-- `LEN`, read as signed (R25). -/
  len : Word
  /-- `FACTOR`, read as signed (R26). -/
  factor : Word
  /-- `CPTR`, read as unsigned (R27). -/
  cptr : Word
  /-- `PHASE`, read as unsigned (R28). -/
  phase : Word
  /-- `COEF` (R30): every word that LDC has written since the last reset or CLR. SETLEN leaves the bits (R71); which
  elements hold a value is `State.heldCoef` (log 8). -/
  coef : Store
  /-- `DELAY`, element 0 the most recent sample (R31, R32). -/
  delay : Store
  /-- `MAXTAPS`, the instance's constant, which no step changes (R29; log 1). -/
  maxTaps : Nat
  /-- What the host does from now on, in order (R22, R45; log 4). -/
  pending : List HostEvent
  /-- The responses so far, in command order (R45, R141; log 5). -/
  responses : List Response
  /-- The model's own: how many NaN words have been drawn for R16 (log 3). -/
  nanDraws : Nat
deriving DecidableEq, Repr

/-- The machine right after a hard reset (R35, R128): `STATE`, `LEN`, `FACTOR`, `CPTR`, `PHASE` are 0, no
element of either store holds a value, and `MAXTAPS` has its fixed value. No command has been presented yet
(log 4), no response given (log 5), no NaN word drawn (log 3). -/
def State.reset : State where
  state := .uninitialized
  len := 0
  factor := 0
  cptr := 0
  phase := 0
  coef := []
  delay := []
  maxTaps := Config.maxTaps
  pending := []
  responses := []
  nanDraws := 0

end Sys2Proof.Machine
end

