-- ==== Sys2Proof/Machine/Operands.lean ====
section
/-! DEFINITION. How operand words are read and how results are made into data words (spec/00_scope.md R8,
R11; spec/30_encoding.md R51, R53). -/

namespace Sys2Proof.Machine

/-- `s32(w)`: a word read as signed two's complement (R8). -/
def s32 (w : Word) : Int := w.toInt

/-- A word read as an unsigned index; the whole word is the index (R51). -/
def idx (w : Word) : Nat := w.toNat

/-- `sext_32(q)`: the sample in bits 15 to 0 and sixteen copies of its sign bit above (R8, R53). -/
def sext32 (q : Sample) : Word := q.signExtend 32

/-- `zext_32(b)`: the byte in bits 7 to 0 and zeros above (R8). -/
def zext32 (b : Byte) : Word := b.setWidth 32

/-- `+0.0` (R11). -/
def f32PlusZero : Word := 0x00000000

/-- `-0.0` (R11). -/
def f32MinusZero : Word := 0x80000000

/-- `+1.0` (R11). -/
def f32PlusOne : Word := 0x3F800000

/-- `-1.0` (R11). -/
def f32MinusOne : Word := 0xBF800000

/-- `32767.0`, the quantizer's scale and upper clip bound (R11). -/
def f32Scale : Word := 0x46FFFE00

/-- `-32768.0`, the quantizer's lower clip bound (R11). -/
def f32LowerClip : Word := 0xC7000000

/-- The value of `STATE` as a register: 0 Uninitialized, 1 Ready, zero-extended (R24, R53). -/
def LifeState.toWord : LifeState → Word
  | .uninitialized => 0
  | .ready => 1

end Sys2Proof.Machine
end

