-- ==== Sys2Proof/Machine/Flags.lean ====
section
/-! DEFINITION. Conditions on binary32 words: the block has no status flags (spec/10_state.md R23); what stands
in that place are the predicates and comparisons the rules test (spec/00_scope.md R9, R10, R14). -/

namespace Sys2Proof.Machine

/-- The sign bit of a binary32 word, `w[31]` (R9). -/
def f32Sign (w : Word) : Bool := w.getLsbD 31

/-- The biased exponent of a binary32 word, `w[30:23]` (R9). -/
def f32Exponent (w : Word) : Nat := (w.extractLsb' 23 8).toNat

/-- The fraction of a binary32 word, `w[22:0]` (R9). -/
def f32Fraction (w : Word) : Nat := (w.extractLsb' 0 23).toNat

/-- `isNaN(w)`: `w[30:23] = 255` and `w[22:0] != 0` (R10). -/
def isNaN (w : Word) : Bool := f32Exponent w == 255 && f32Fraction w != 0

/-- `isInf(w)`: `w[30:23] = 255` and `w[22:0] = 0` (R10). -/
def isInf (w : Word) : Bool := f32Exponent w == 255 && f32Fraction w == 0

/-- `isZero(w)`: `w[30:0] = 0` (R10). -/
def isZero (w : Word) : Bool := w.extractLsb' 0 31 == 0

/-- The magnitude of `val(w)` in units of 2^-149, the weight of the least subnormal (R9, R10): every finite
binary32 value is a whole number of these units. For an infinity this is 2^277 units, above every finite
magnitude. -/
def f32Magnitude (w : Word) : Nat :=
  if f32Exponent w = 0 then f32Fraction w
  else (2 ^ 23 + f32Fraction w) * 2 ^ (f32Exponent w - 1)

/-- `val(w)` of a non-NaN word in units of 2^-149 (R10); both zeros give 0. -/
def f32Value (w : Word) : Int := if f32Sign w then -(f32Magnitude w : Int) else f32Magnitude w

/-- `fgt(a, b)`: ordered greater than, false when either operand is a NaN; the zeros compare equal (R14). -/
def fgt (a b : Word) : Bool := !isNaN a && !isNaN b && decide (f32Value b < f32Value a)

/-- `flt(a, b)`: ordered less than, false when either operand is a NaN; the zeros compare equal (R14). -/
def flt (a b : Word) : Bool := !isNaN a && !isNaN b && decide (f32Value a < f32Value b)

end Sys2Proof.Machine
end

