-- ==== Sys2Proof/Machine/Float.lean ====
section
/-! DEFINITION. The binary32 arithmetic: product, sum, truncation (spec/00_scope.md R12, R13, R15, R16). The
exact result is computed in whole numbers and rounded once, at the end. -/

namespace Sys2Proof.Machine

/-- The result of an arithmetic operation. Which NaN word a produced NaN is, is not fixed (R16), so a produced
NaN is no word until a response has to carry one (log 3). -/
inductive FloatResult where
  | word (w : Word)
  | unfixedNaN
deriving DecidableEq, Repr

/-- The word with the given sign bit whose low 31 bits are `m`. -/
def f32Pack (negative : Bool) (m : Nat) : Word := BitVec.ofBool negative ++ BitVec.ofNat 31 m

/-- The low 31 bits of the infinities (R9). -/
def f32InfBits : Nat := 0x7F800000

/-- Round the magnitude `n * 2^-(149 + k)` once to binary32, to nearest with ties to even, with gradual
underflow and overflow to infinity (R12, R13); the low 31 bits of the result. `drop` low bits are rounded away:
as many as leave 24 significant bits, but never finer than 2^-149. -/
def f32Round (n k : Nat) : Nat :=
  let drop := max k (n.log2 - 23)
  let q := n / 2 ^ drop
  let r := n % 2 ^ drop
  let rounded := if 2 ^ drop < 2 * r ∨ 2 * r = 2 ^ drop ∧ q % 2 = 1 then q + 1 else q
  min ((drop - k) * 2 ^ 23 + rounded) f32InfBits

/-- `fmul(a, b)` (R12). The product of two magnitudes is a whole number of 2^-298. -/
def fmul (a b : Word) : FloatResult :=
  if isNaN a || isNaN b then .unfixedNaN
  else if isZero a && isInf b || isInf a && isZero b then .unfixedNaN
  else if isInf a || isInf b then .word (f32Pack (f32Sign a ^^ f32Sign b) f32InfBits)
  else .word (f32Pack (f32Sign a ^^ f32Sign b) (f32Round (f32Magnitude a * f32Magnitude b) 149))

/-- `fadd(a, b)` (R13). The sum of two values is a whole number of 2^-149. -/
def fadd (a b : Word) : FloatResult :=
  if isNaN a || isNaN b then .unfixedNaN
  else if isInf a && isInf b && f32Sign a != f32Sign b then .unfixedNaN
  else if isInf a then .word a
  else if isInf b then .word b
  else if f32Value a + f32Value b = 0 then .word (f32Pack (f32Sign a && f32Sign b) 0)
  else .word (f32Pack (decide (f32Value a + f32Value b < 0)) (f32Round (f32Value a + f32Value b).natAbs 0))

/-- `ftrunc_i16(v)`: the integer left when the fraction of `val(v)` is discarded (R15); defined for a non-NaN
`v` with `-32768 <= val(v) <= 32767`. -/
def ftruncI16 (v : Word) : Sample :=
  let whole : Nat := f32Magnitude v / 2 ^ 149
  BitVec.ofInt 16 (if f32Sign v then -(whole : Int) else (whole : Int))

end Sys2Proof.Machine
end

