-- ==== Sys2Proof/Machine/Ops.lean ====
section
/-! DEFINITION. The named operations over the registers, the stores and the responses: answering a command,
raising a failure, clearing the block, reading and writing store elements, the filter step, the decimator step,
the quantizer (spec/00_scope.md R17 to R19; spec/41_fir.md R80; spec/42_unpack.md R88;
spec/43_decimate_quantize.md R92, R97; spec/60_exceptions.md R122). -/

namespace Sys2Proof.Machine

/-- The three outcomes of this machine. -/
abbrev Result := Host.Outcome State Fault Refusal

/-! ### Responses and failures -/

/-- The 4-bit code of a status (R112). -/
def Status.code : Status → BitVec 4
  | .ok => 0
  | .eIllegal => 1
  | .eState => 2
  | .eConfig => 3
  | .eResource => 4
  | .eArg => 5
  | .eRange => 6
  | .eNan => 7

/-- The header byte of a response: `hdr[7:4] = status`, `hdr[3:0] = n` (R52). -/
def Response.header (r : Response) : Byte := r.status.code ++ BitVec.ofNat 4 r.data.length

/-- The host's side of one command ending: its response is given, and the block turns to what the host does
next (R45, R50). -/
def State.answer (s : State) (e : Status) (data : List Word) : State :=
  { s with pending := s.pending.tail, responses := s.responses ++ [⟨e, data⟩] }

/-- A command that ends with status `OK` and the words it emitted (R18, R52). -/
def State.done (s : State) (data : List Word) : Result := .next (s.answer .ok data)

/-- `raise E_x`: the response carries the status and no data words, and no state of the block is changed
(R18). This is the block's whole taking of an exception: nothing is saved, no mode changes, control goes
nowhere, the next command is executed normally (R122), so there is no return from one either (R123). -/
def State.fail (s : State) (e : Status) : Result := .next (s.answer e [])

/-- How a command's work that ended early ends the command. -/
def State.stop (s : State) : Stop → Result
  | .raise e => s.fail e
  | .fault f => .fault f

/-- The registers and stores at their reset values (R35); `MAXTAPS` and the host's side are not touched. -/
def State.clearBlock (s : State) : State :=
  { s with state := .uninitialized, len := 0, factor := 0, cptr := 0, phase := 0, coef := [], delay := [] }

/-- A hard reset between two commands (R128, R129): it has no response. -/
def State.hardReset (s : State) : State := { s.clearBlock with pending := s.pending.tail }

/-! ### The two stores -/

/-- The value of an element; `none` when it holds no value (R19). -/
def Store.read : Store → Nat → Option Word
  | [], _ => none
  | (k, v) :: rest, i => if i = k then some v else Store.read rest i

/-- Write an element, keeping the indices strictly rising (R17). -/
def Store.write : Store → Nat → Word → Store
  | [], i, v => [(i, v)]
  | (k, u) :: rest, i, v =>
    if i < k then (i, v) :: (k, u) :: rest
    else if i = k then (i, v) :: rest
    else (k, u) :: Store.write rest i v

/-- The canonical form: strictly rising indices, all below `cap` (R37, R38). An unlisted element holds no
value, so no listed entry can equal what an unlisted one reads as. -/
abbrev Store.wf (cap : Nat) (st : Store) : Prop :=
  st.Pairwise (fun p q => p.1 < q.1) ∧ ∀ p ∈ st, p.1 < cap

/-- `for i = 0 to n-1: DELAY[i] <- +0.0` (R74). -/
def Store.zeroFill (st : Store) : Nat → Store
  | 0 => st
  | n + 1 => (Store.zeroFill st n).write n f32PlusZero

/-- `for i = n downto 1: DELAY[i] <- DELAY[i-1]` (R80). -/
def Store.shift (st : Store) : Nat → Option Store
  | 0 => some st
  | n + 1 =>
    match st.read n with
    | none => none
    | some v => Store.shift (st.write (n + 1) v) n

/-- Elements `i` to `i+n-1` in rising order, when each holds a value. -/
def Store.readFrom (st : Store) : Nat → Nat → Option (List Word)
  | _, 0 => some []
  | i, n + 1 =>
    match st.read i, Store.readFrom st (i + 1) n with
    | some w, some ws => some (w :: ws)
    | _, _ => none

/-- The elements of a store with an index below `n`. -/
def Store.below (st : Store) (n : Nat) : Store := st.filter fun p => decide (p.1 < n)

/-- `COEF` as every command reads it: an element at or above `CPTR` holds no value (R30, U6), even where SETLEN has
left its bits (R71; log 8). -/
def State.heldCoef (s : State) : Store := s.coef.below s.cptr.toNat

/-! ### The FIR engine -/

/-- One multiply-accumulate, `fadd(acc, fmul(d, c))`: the product is rounded, then the sum is rounded (R80). -/
def mac (acc : FloatResult) (d c : Word) : FloatResult :=
  match acc, fmul d c with
  | .word a, .word p => fadd a p
  | _, _ => .unfixedNaN

/-- `acc <- +0.0; for i = 0 to LEN-1: acc <- fadd(acc, fmul(DELAY[i], COEF[i]))` (R80). -/
def dot (delay coef : List Word) : FloatResult :=
  (delay.zip coef).foldl (fun acc dc => mac acc dc.1 dc.2) (.word f32PlusZero)

/-- `LEN` as the bound of the loops over `0 .. LEN-1`, which do nothing when `LEN < 1` (R17, R25). -/
def State.taps (s : State) : Nat := (s32 s.len).toNat

/-- `fir_step(x)` (R80) on a filter of `taps` taps: the new delay line and the output. `none` when an element
that is read holds no value. -/
def firStep (taps : Nat) (coef delay : Store) (x : Word) : Option (Store × FloatResult) :=
  match delay.shift (taps - 1) with
  | none => none
  | some shifted =>
    match (shifted.write 0 x).readFrom 0 taps, coef.readFrom 0 taps with
    | some ds, some cs => some (shifted.write 0 x, dot ds cs)
    | _, _ => none

/-- Answer a command with the output of the filter. A produced NaN is the next free NaN word (R16, R81). -/
def State.emitFloat (s : State) : FloatResult → Result
  | .word w => s.done [w]
  | .unfixedNaN => { s with nanDraws := s.nanDraws + 1 }.done [Config.freeNaN s.nanDraws]

/-! ### The bit unpacker -/

/-- `unpack_bit(b, k)`: `+1.0` when `b[k] = 1`, `-1.0` when `b[k] = 0` (R88). -/
def unpackBit (b : Byte) (k : Nat) : Word := if b.getLsbD k then f32PlusOne else f32MinusOne

/-- The eight samples of a byte, bit 0 first (R40, R89). -/
def unpackByte (b : Byte) : List Word := (List.range 8).map (unpackBit b)

/-! ### The decimator and the quantizer -/

/-- `dec_step()`: whether the sample is kept, and the new `PHASE` (R92). The last sample of each group of
`FACTOR` is kept (R96). -/
def decStep (factor phase : Word) : Bool × Word :=
  if phase = factor - 1 then (true, 0) else (false, phase + 1)

/-- Clip a scaled sample to `-32768 .. 32767` and discard its fraction, toward zero (R97). -/
def clipToI16 (v : Word) : Sample :=
  if fgt v f32Scale then 32767
  else if flt v f32LowerClip then -32768
  else ftruncI16 v

/-- `quantize(x)` (R97): scale, NaN test, clip, truncate; `none` is `raise E_NAN`. -/
def quantize (x : Word) : Option Sample :=
  match fmul x f32Scale with
  | .unfixedNaN => none
  | .word v => some (clipToI16 v)

/-- `quantize` of a filter output: a produced NaN is some NaN word, and `quantize` of every NaN word raises
(R16, R97, R100). -/
def quantizeResult : FloatResult → Option Sample
  | .word y => quantize y
  | .unfixedNaN => none

/-! ### The status registers -/

/-- The status registers by number (R39, R107); `none` for the numbers that do not exist. -/
def State.statusRegister (s : State) (r : Nat) : Option Word :=
  match r with
  | 0 => some s.state.toWord
  | 1 => some s.len
  | 2 => some s.factor
  | 3 => some s.cptr
  | 4 => some s.phase
  | 5 => some (BitVec.ofNat 32 s.maxTaps)
  | _ => none

end Sys2Proof.Machine
end

