-- ==== Sys2Proof/Machine/Configure.lean ====
section
/-! DEFINITION. Family 0, configuration and life cycle: CLR, SETLEN, SETFAC, LDC, INIT
(spec/40_config.md R70 to R77). -/

namespace Sys2Proof.Machine

/-- CLR (R70): the state after reset (R35), in any state of the block. -/
def execClr (s : State) : Result := s.clearBlock.done []

/-- SETLEN (R71): stage `LEN` and reset `CPTR`; the elements of `COEF` keep their bits but hold no value any more
(R30), so that no command reads them before LDC writes them again. -/
def execSetlen (n : Word) (s : State) : Result :=
  if s.state ≠ .uninitialized then s.fail .eState
  else { s with len := n, cptr := 0 }.done []

/-- SETFAC (R72): stage `FACTOR`. -/
def execSetfac (n : Word) (s : State) : Result :=
  if s.state ≠ .uninitialized then s.fail .eState
  else { s with factor := n }.done []

/-- LDC (R73): `COEF[CPTR] <- v; CPTR <- CPTR + 1`, bit for bit. -/
def execLdc (v : Word) (s : State) : Result :=
  if s.state ≠ .uninitialized then s.fail .eState
  else if s.maxTaps ≤ s.cptr.toNat then s.fail .eResource
  else { s with coef := s.coef.write s.cptr.toNat v, cptr := s.cptr + 1 }.done []

/-- INIT (R74): the checks in the order of the rule, signed on `LEN` and `FACTOR`; then zero fill, `PHASE <- 0`,
`STATE <- 1`. -/
def execInit (s : State) : Result :=
  if s.state ≠ .uninitialized then s.fail .eState
  else if s32 s.len < 1 then s.fail .eConfig
  else if s32 s.factor < 1 then s.fail .eConfig
  else if (s.maxTaps : Int) < s32 s.len then s.fail .eResource
  else if (s.cptr.toNat : Int) ≠ s32 s.len then s.fail .eArg
  else { s with delay := s.delay.zeroFill s.taps, phase := 0, state := .ready }.done []

end Sys2Proof.Machine
end

