-- ==== Sys2Proof/Machine/Decimate.lean ====
section
/-! DEFINITION. Family 3, the decimator and the quantizer: DSYNC, DEC, QNT
(spec/43_decimate_quantize.md R93, R95, R98). -/

namespace Sys2Proof.Machine

/-- DSYNC (R93): `PHASE <- 0`; the delay line runs on. -/
def execDsync (s : State) : Result :=
  if s.state ≠ .ready then s.fail .eState
  else { s with phase := 0 }.done []

/-- DEC (R95): one decimator step; the operand comes back bit for bit when it is kept. -/
def execDec (x : Word) (s : State) : Result :=
  if s.state ≠ .ready then s.fail .eState
  else
    match decStep s.factor s.phase with
    | (true, phase) => { s with phase := phase }.done [x]
    | (false, phase) => { s with phase := phase }.done []

/-- QNT (R98): the quantized sample, sign-extended; `E_NAN` when the operand is a NaN. -/
def execQnt (x : Word) (s : State) : Result :=
  match quantize x with
  | none => s.fail .eNan
  | some q => s.done [sext32 q]

end Sys2Proof.Machine
end

