-- ==== Sys2Proof/Machine/Filter.lean ====
section
/-! DEFINITION. Family 1, the FIR engine: APPLY (spec/41_fir.md R80 to R82). -/

namespace Sys2Proof.Machine

/-- APPLY (R81): one filter step; the output is returned, NaN and infinity too; `PHASE` is not touched. -/
def execApply (x : Word) (s : State) : Result :=
  if s.state ≠ .ready then s.fail .eState
  else
    match firStep s.taps s.heldCoef s.delay x with
    | none => .fault .noValue
    | some (delay, y) => { s with delay := delay }.emitFloat y

end Sys2Proof.Machine
end

