-- ==== Sys2Proof/Machine/Pipeline.lean ====
section
/-! DEFINITION. Family 4, the pipeline: CONV (spec/44_pipeline.md R102 to R104). -/

namespace Sys2Proof.Machine

/-- The copy of `DELAY` and `PHASE` that CONV works on, and the words emitted so far (R104). -/
structure ConvWork where
  delay : Store
  phase : Word
  out : List Word
deriving DecidableEq, Repr

/-- One pass of CONV's loop, for the sample `x` (R102): filter, decimate, and quantize a kept sample. -/
def convSample (taps : Nat) (coef : Store) (factor : Word) (x : Word) (w : ConvWork) : Except Stop ConvWork :=
  match firStep taps coef w.delay x with
  | none => .error (.fault .noValue)
  | some (delay, y) =>
    match decStep factor w.phase with
    | (false, phase) => .ok ⟨delay, phase, w.out⟩
    | (true, phase) =>
      match quantizeResult y with
      | none => .error (.raise .eNan)
      | some q => .ok ⟨delay, phase, w.out ++ [sext32 q]⟩

/-- CONV's loop over its samples, the earliest first (R40, R102). -/
def convSamples (taps : Nat) (coef : Store) (factor : Word) : List Word → ConvWork → Except Stop ConvWork
  | [], w => .ok w
  | x :: xs, w =>
    match convSample taps coef factor x w with
    | .error e => .error e
    | .ok w' => convSamples taps coef factor xs w'

/-- CONV (R102): the copies of `DELAY` and `PHASE` are written back only when the loop has finished without a
`raise` (R104). -/
def execConv (b : Byte) (s : State) : Result :=
  if s.state ≠ .ready then s.fail .eState
  else
    match convSamples s.taps s.heldCoef s.factor (unpackByte b) ⟨s.delay, s.phase, []⟩ with
    | .error e => s.stop e
    | .ok w => { s with delay := w.delay, phase := w.phase }.done w.out

end Sys2Proof.Machine
end

