-- ==== Sys2Proof/Machine/Readback.lean ====
section
/-! DEFINITION. Family 5, read-back: RDS, RDC, RDD (spec/45_readback.md R107 to R110). No command here writes
a register or a store element (R108). -/

namespace Sys2Proof.Machine

/-- RDS (R107): a control register by number. -/
def execRds (r : Word) (s : State) : Result :=
  match s.statusRegister (idx r) with
  | none => s.fail .eRange
  | some w => s.done [w]

/-- RDC (R109): a coefficient, for an index below `CPTR`. -/
def execRdc (i : Word) (s : State) : Result :=
  if s.cptr.toNat ≤ idx i then s.fail .eRange
  else
    match s.heldCoef.read (idx i) with
    | none => .fault .noValue
    | some w => s.done [w]

/-- RDD (R110): a delay-line element by its logical index, for an index below `LEN`, in state Ready. -/
def execRdd (i : Word) (s : State) : Result :=
  if s.state ≠ .ready then s.fail .eState
  else if s.len.toNat ≤ idx i then s.fail .eRange
  else
    match s.delay.read (idx i) with
    | none => .fault .noValue
    | some w => s.done [w]

end Sys2Proof.Machine
end

