-- ==== Sys2Proof/Machine/Unpack.lean ====
section
/-! DEFINITION. Family 2, the PDM bit unpacker: UNPK (spec/42_unpack.md R89). -/

namespace Sys2Proof.Machine

/-- UNPK (R89): eight samples, bit 0 first; no state of the block is read or written. -/
def execUnpk (b : Byte) (s : State) : Result := s.done (unpackByte b)

end Sys2Proof.Machine
end

