-- ==== Sys2Proof/Machine/Dispatch.lean ====
section
/-! DEFINITION. The meaning of every command (spec/30_encoding.md R57): one arm per row of the opcode map. -/

namespace Sys2Proof.Machine

/-- What a command does, from the state in which it is presented to the state in which it has been answered. -/
def exec (i : Instr) (s : State) : Host.Outcome State Fault Refusal :=
  match i with
  | .clr => Sys2Proof.Machine.execClr s
  | .setlen n => Sys2Proof.Machine.execSetlen n s
  | .setfac n => Sys2Proof.Machine.execSetfac n s
  | .ldc v => Sys2Proof.Machine.execLdc v s
  | .init => Sys2Proof.Machine.execInit s
  | .apply x => Sys2Proof.Machine.execApply x s
  | .unpk b => Sys2Proof.Machine.execUnpk b s
  | .dsync => Sys2Proof.Machine.execDsync s
  | .dec x => Sys2Proof.Machine.execDec x s
  | .qnt x => Sys2Proof.Machine.execQnt x s
  | .conv b => Sys2Proof.Machine.execConv b s
  | .rds r => Sys2Proof.Machine.execRds r s
  | .rdc k => Sys2Proof.Machine.execRdc k s
  | .rdd k => Sys2Proof.Machine.execRdd k s

end Sys2Proof.Machine
end

