-- ==== Sys2Proof/Machine/Step.lean ====
section
/-! DEFINITION. One step of the machine: the next thing the host does (spec/20_memory.md R43, R45;
spec/30_encoding.md R54; spec/70_reset_and_hazards.md R128, R129, R141). -/

namespace Sys2Proof.Machine

/-- One step. With nothing presented, the block is quiescent and holds its state (R141). A hard reset clears
the block (R128). A command word is decoded (R54 steps 1 and 2): an illegal one is answered `E_ILLEGAL` and
changes nothing (R58, R114); a legal one is executed and answered before the next is looked at (R45). -/
def step (s : State) : Host.Outcome State Fault Refusal :=
  match s.pending with
  | [] => .next s
  | .hardReset :: _ => .next s.hardReset
  | .command w :: _ =>
    match decode w with
    | .error _ => s.fail .eIllegal
    | .ok i => exec i s

/-- `s` with the command word whose bits are `w` as the next thing the host presents (log 4). -/
def State.withFetchWord (s : State) (nbits w : Nat) : State :=
  { s with pending := .command (tableWord nbits w) :: s.pending.tail }

end Sys2Proof.Machine
end

