-- ==== Sys2Proof/Safety.lean ====
section
/-! DEFINITION. What counts as a sound state and a safe run, and the other notions the statements speak in
(spec/10_state.md R27, R28, R31, R33; spec/40_config.md R75; spec/41_fir.md R83; spec/44_pipeline.md R105). -/

namespace Sys2Proof.Machine

/-! ### Sound states -/

/-- The invariants of state Ready (R33): `1 <= LEN <= MAXTAPS`, `FACTOR >= 1`, `CPTR = LEN`,
`0 <= PHASE <= FACTOR - 1`, every `COEF[i]` and `DELAY[i]` with `0 <= i < LEN` holds a value, and no element of
`DELAY` at or above `LEN` has been written (R31). -/
structure State.ReadyInv (s : State) : Prop where
  len_pos : 1 ≤ s32 s.len
  len_le : s32 s.len ≤ s.maxTaps
  factor_pos : 1 ≤ s32 s.factor
  cptr_eq : (s.cptr.toNat : Int) = s32 s.len
  phase_le : (s.phase.toNat : Int) ≤ s32 s.factor - 1
  coef_holds : ∀ i, i < s.taps → (s.heldCoef.read i).isSome
  delay_holds : ∀ i, (s.delay.read i).isSome ↔ i < s.taps

/-- What holds in state Uninitialized: `PHASE` is 0 (R28), and no element of `DELAY` has been written since the
reset or CLR (R31, R38). -/
structure State.UninitializedInv (s : State) : Prop where
  phase_zero : s.phase = 0
  delay_empty : s.delay = []

/-- A response as R52 has it: at most eight data words, and none when the status is not `OK`. -/
structure Response.Sound (r : Response) : Prop where
  length_le : r.data.length ≤ 8
  empty_of_failure : r.status ≠ .ok → r.data = []

/-- The invariant of the machine: `MAXTAPS` is at least 1 (R4, R29) and below 2^32 (log 2, DEDUCED), the two
stores are canonical and inside their index spaces (R37, R38), `CPTR <= MAXTAPS` and the elements below `CPTR`
hold values (R27, R109), the state's own invariant holds, and the responses are as R52 has them. -/
structure State.Inv (s : State) : Prop where
  maxTaps_pos : 1 ≤ s.maxTaps
  maxTaps_lt : s.maxTaps < 2 ^ 32
  coef_wf : s.coef.wf s.maxTaps
  delay_wf : s.delay.wf s.maxTaps
  cptr_le : s.cptr.toNat ≤ s.maxTaps
  coef_below_cptr : ∀ i, i < s.cptr.toNat → (s.heldCoef.read i).isSome
  uninitialized : s.state = .uninitialized → s.UninitializedInv
  ready : s.state = .ready → s.ReadyInv
  responses : ∀ r ∈ s.responses, r.Sound

/-- Every element of the two stores that the command reads in this state holds a value (R19, R80, R109, R110). The
filter reads the coefficients of all taps, and of the delay line all but the oldest element, which the shift drops;
a command in the wrong state, and a read with an index out of range, read no element. -/
def readsOnlyValues (i : Instr) (s : State) : Prop :=
  match i with
  | .apply _ | .conv _ => s.state = .ready →
      (∀ j, j + 1 < s.taps → (s.delay.read j).isSome) ∧ ∀ j, j < s.taps → (s.heldCoef.read j).isSome
  | .rdc k => k.toNat < s.cptr.toNat → (s.heldCoef.read k.toNat).isSome
  | .rdd k => s.state = .ready → k.toNat < s.len.toNat → (s.delay.read k.toNat).isSome
  | .clr | .setlen _ | .setfac _ | .ldc _ | .init | .unpk _ | .dsync | .dec _ | .qnt _ | .rds _ => True

/-- A safe step: the machine neither faults nor refuses. -/
def State.StepsOn (s : State) : Prop := ∃ t, step s = .next t

/-! ### Notions of the rules -/

/-- The state each command needs (the table of R75); `none` is any state. -/
def needs : Instr → Option LifeState
  | .setlen _ | .setfac _ | .ldc _ | .init => some .uninitialized
  | .apply _ | .dsync | .dec _ | .conv _ | .rdd _ => some .ready
  | .clr | .unpk _ | .qnt _ | .rds _ | .rdc _ => none

/-- A finite binary32 word: neither an infinity nor a NaN (R9, R10). -/
def isFinite (w : Word) : Bool := f32Exponent w != 255

/-- Feed samples to the filter one after the other (R82): the delay line after the last, and the outputs. -/
def firRun (taps : Nat) (coef : Store) : List Word → Store → Option (Store × List FloatResult)
  | [], d => some (d, [])
  | x :: xs, d =>
    match firStep taps coef d x with
    | none => none
    | some (d', y) =>
      match firRun taps coef xs d' with
      | none => none
      | some (d'', ys) => some (d'', y :: ys)

/-- Feed `n` samples to the decimator (R94): how many were kept, and `PHASE` after the last. -/
def decRun (factor : Word) : Nat → Word → Nat × Word
  | 0, phase => (0, phase)
  | n + 1, phase =>
    match decStep factor (decRun factor n phase).2 with
    | (true, p) => ((decRun factor n phase).1 + 1, p)
    | (false, p) => ((decRun factor n phase).1, p)

/-- The filter output of the `k`-th sample of a CONV byte, written out: `old` are the elements of the delay line
before the command, `cs` the coefficients; by sample `k` the line holds bits `k` down to 0 and then the old
elements, as far as it is long (R80, R102). -/
def convOutput (taps : Nat) (old cs : List Word) (b : Byte) (k : Nat) : FloatResult :=
  dot (((List.range (k + 1)).reverse.map (unpackBit b) ++ old).take taps) cs

/-- Whether the `k`-th sample of a CONV byte is the last of its group (R96, R102). -/
def convKeeps (factor phase : Word) (k : Nat) : Bool := (phase.toNat + k + 1) % factor.toNat == 0

/-- The last response given. -/
def State.lastResponse (s : State) : Option Response := s.responses.getLast?

/-- The status of the last response given. -/
def State.lastStatus (s : State) : Option Status := s.lastResponse.map Response.status

/-- One command in a sequence that goes on only while the responses are `OK`: the state after it and its data
words. -/
def execOk (i : Instr) (s : State) : Option (State × List Word) :=
  match exec i s with
  | .next t =>
    match t.lastResponse with
    | some ⟨.ok, data⟩ => some (t, data)
    | _ => none
  | _ => none

/-- One sample through the parts (R105): APPLY, DEC of the output, and, if DEC returned a word, QNT of it. -/
def partsSample (x : Word) (s : State) : Option (State × List Word) :=
  match execOk (.apply x) s with
  | some (s1, [y]) =>
    match execOk (.dec y) s1 with
    | some (s2, [z]) => execOk (.qnt z) s2
    | some (s2, _) => some (s2, [])
    | none => none
  | _ => none

/-- Samples through the parts, one after the other, collecting the QNT words (R105). -/
def partsSamples : List Word → State → Option (State × List Word)
  | [], s => some (s, [])
  | x :: xs, s =>
    match partsSample x s with
    | none => none
    | some (s', out) =>
      match partsSamples xs s' with
      | none => none
      | some (s'', outs) => some (s'', out ++ outs)

/-- A PDM byte through the single-component commands (R105): UNPK, then each of its samples. -/
def parts (b : Byte) (s : State) : Option (State × List Word) :=
  match execOk (.unpk b) s with
  | none => none
  | some (s', samples) => partsSamples samples s'

end Sys2Proof.Machine
end

