-- ==== Sys2Proof/Certificates/Slice0/Obligations.lean ====
section
/-! DEFINITION. The statements for the provers. Each docstring names the rule it formalises, or says that it rests
on a choice of the model. -/

open Sys2Proof Sys2Proof.Machine

/-! ### Command words -/

/-- Decoding and encoding agree in both directions: a word decodes to a command exactly when it is that command's
word, with every operand at every value (R54, R57, R62). -/
def Obligations.DecodeYieldsExactlyTheEncodedCommand : Prop :=
  ∀ (w : CommandWord) (i : Instr), decode w = .ok i ↔ w = encode i

/-- The decoder accepts exactly the words that select a row of the opcode map, and the row is the only one that
the word selects (R54, R57). -/
def Obligations.DecodeAcceptsExactlyTheOpcodeMap : Prop :=
  ∀ w : CommandWord, ((∃ i, decode w = .ok i) ↔ legalWord w = true) ∧
    ∀ i, decode w = .ok i → i.row.selects w = true ∧ ∀ r ∈ opcodeTable, r.selects w = true → r = i.row

/-- A word that matches no row of R57 is answered `E_ILLEGAL` with no data and changes no state; the illegal words
are those of an unassigned opcode and those with a must-be-zero operand bit set (R58). -/
def Obligations.IllegalWordIsAnsweredAndChangesNothing : Prop :=
  ∀ w : CommandWord,
    (legalWord w = false ↔
      (w.extractLsb' 32 8).toNat ∉ [0x01, 0x02, 0x03, 0x04, 0x05, 0x10, 0x20, 0x30, 0x31, 0x32, 0x40, 0x50, 0x51, 0x52] ∨
      (w.extractLsb' 32 8).toNat ∈ [0x01, 0x05, 0x30] ∧ w.extractLsb' 0 32 ≠ 0 ∨
      (w.extractLsb' 32 8).toNat ∈ [0x20, 0x40] ∧ w.extractLsb' 8 24 ≠ 0) ∧
    ∀ (s : State) (rest : List HostEvent), legalWord w = false → s.pending = .command w :: rest →
      step s = .next { s with pending := rest, responses := s.responses ++ [⟨.eIllegal, []⟩] }

/-- Words written out from the encoding of R50 and R57 decode to the commands they stand for. -/
def Obligations.WordsOfEachFamilyDecode : Prop :=
  decode 0x0200000003 = .ok (.setlen 3) ∧ decode 0x0500000000 = .ok .init ∧
  decode 0x103F800000 = .ok (.apply 0x3F800000) ∧ decode 0x20000000A5 = .ok (.unpk 0xA5) ∧
  decode 0x323F000000 = .ok (.qnt 0x3F000000) ∧ decode 0x40000000FF = .ok (.conv 0xFF) ∧
  decode 0x5200000001 = .ok (.rdd 1)

/-! ### One step -/

/-- A step runs the decoded command: when the word presented decodes to a command, the step is `exec` of it at the
same state (R45, R54). -/
def Obligations.StepRunsTheDecodedCommand : Prop :=
  ∀ (s : State) (w : CommandWord) (rest : List HostEvent) (i : Instr),
    s.pending = .command w :: rest → decode w = .ok i → step s = exec i s

/-- Answering a command gives one response and turns to the next command; nothing else of the state is changed
(R45, R50, R52). -/
def Obligations.AnsweringTouchesOnlyTheHostSide : Prop :=
  ∀ (s : State) (e : Status) (data : List Word),
    s.answer e data = { s with pending := s.pending.tail, responses := s.responses ++ [⟨e, data⟩] }

/-- A hard reset between commands leaves the reset values in the registers and both stores without values, gives no
response and does not touch `MAXTAPS` (R128). That it is an entry of the host's list is the model's choice
(log 6). -/
def Obligations.HardResetClearsTheBlock : Prop :=
  ∀ (s : State) (rest : List HostEvent), s.pending = .hardReset :: rest →
    step s = .next { s with state := .uninitialized, len := 0, factor := 0, cptr := 0, phase := 0, coef := [],
                            delay := [], pending := rest }

/-- With nothing presented the block holds its state (R141). That the step then answers the same state, rather than
stopping, is the model's choice (log 4). -/
def Obligations.WithoutACommandTheBlockHoldsItsState : Prop :=
  ∀ s : State, s.pending = [] → step s = .next s

/-- The state after reset, and after a successful CLR: the five registers are 0, no element of either store holds a
value, and `MAXTAPS` is as it was (R35). That a hard reset is an entry of the host's list is the model's choice
(log 6). -/
def Obligations.ResetAndClrLeaveTheResetValues : Prop :=
  (State.reset.state = .uninitialized ∧ State.reset.len = 0 ∧ State.reset.factor = 0 ∧ State.reset.cptr = 0 ∧
    State.reset.phase = 0 ∧ (∀ i, State.reset.coef.read i = none) ∧ ∀ i, State.reset.delay.read i = none) ∧
  (∀ (s : State) (rest : List HostEvent), s.pending = .hardReset :: rest → ∃ t, step s = .next t ∧
    t.state = .uninitialized ∧ t.len = 0 ∧ t.factor = 0 ∧ t.cptr = 0 ∧ t.phase = 0 ∧
    (∀ i, t.coef.read i = none) ∧ (∀ i, t.delay.read i = none) ∧ t.maxTaps = s.maxTaps) ∧
  ∀ s : State, ∃ t, exec .clr s = .next t ∧ t.lastStatus = some .ok ∧ t.state = .uninitialized ∧ t.len = 0 ∧
    t.factor = 0 ∧ t.cptr = 0 ∧ t.phase = 0 ∧ (∀ i, t.coef.read i = none) ∧ (∀ i, t.delay.read i = none) ∧
    t.maxTaps = s.maxTaps

/-! ### Whole-machine rules -/

/-- The state after reset satisfies the invariant: `MAXTAPS >= 1` (R4, R29), the stores canonical and inside their
index spaces (R37, R38), `CPTR <= MAXTAPS` (R27), `PHASE` 0 and no element of `DELAY` written in state Uninitialized
(R28, R31, R35). That `MAXTAPS < 2^32` is the model's (log 2, DEDUCED from R29). -/
def Obligations.ResetStateIsSound : Prop := State.reset.Inv

/-- Every step keeps the invariant: the stores stay canonical and inside their index spaces, `CPTR <= MAXTAPS`, the
invariants of state Ready hold (R33), `PHASE` is 0 in Uninitialized (R28), responses are as R52 has them. The
invariant also holds the model's bound `MAXTAPS < 2^32` (log 2, DEDUCED from R29), which no step touches. -/
def Obligations.EveryStepKeepsTheInvariant : Prop :=
  ∀ s t : State, s.Inv → step s = .next t → t.Inv

/-- In a sound state the machine never faults and never refuses: whatever word the host presents is answered (R19,
R54, R122). A sound state has `MAXTAPS < 2^32` (log 2, DEDUCED). -/
def Obligations.SoundStatesAlwaysStepOn : Prop :=
  ∀ s : State, s.Inv → s.StepsOn

/-- Every command gives exactly one response, and a failed command changes no state of the block (R18, R45,
R122). -/
def Obligations.FailedCommandChangesNothing : Prop :=
  ∀ (i : Instr) (s t : State), exec i s = .next t →
    ∃ r, t.responses = s.responses ++ [r] ∧ t.pending = s.pending.tail ∧ (r.status ≠ .ok → t = s.answer r.status [])

/-- The number of data words of a successful command (R52). -/
def Obligations.SuccessfulCommandsEmitTheirWordCount : Prop :=
  ∀ (i : Instr) (s t : State) (data : List Word), exec i s = .next t → t.lastResponse = some ⟨.ok, data⟩ →
    match i with
    | .clr | .setlen _ | .setfac _ | .ldc _ | .init | .dsync => data.length = 0
    | .apply _ | .qnt _ | .rds _ | .rdc _ | .rdd _ => data.length = 1
    | .unpk _ => data.length = 8
    | .dec _ => data.length ≤ 1
    | .conv _ => data.length ≤ 8

/-- A command is answered `E_STATE` exactly when it needs a state the block is not in (R75, R115). -/
def Obligations.WrongStateIsAnsweredWithEState : Prop :=
  (∀ (i : Instr) (s : State) (needed : LifeState), needs i = some needed → s.state ≠ needed →
    exec i s = .next (s.answer .eState [])) ∧
  ∀ (i : Instr) (s t : State), exec i s = .next t → t.lastStatus = some .eState →
    ∃ needed, needs i = some needed ∧ s.state ≠ needed

/-- `STATE` changes only as R76 says: from Uninitialized to Ready by a successful INIT and nothing else, from Ready
to Uninitialized by CLR or a hard reset and nothing else. -/
def Obligations.LifeStateChangesOnlyByInitClrAndReset : Prop :=
  ∀ s t : State, step s = .next t →
    (s.state = .uninitialized → t.state = .ready →
      s.pending.head? = some (.command 0x0500000000) ∧ t.lastStatus = some .ok) ∧
    (s.state = .ready → t.state = .uninitialized →
      s.pending.head? = some (.command 0x0100000000) ∨ s.pending.head? = some .hardReset)

/-- While the block stays Ready, its length, factor, coefficient count and coefficients do not change (R33, R75,
R134). -/
def Obligations.ReadyConfigurationIsFrozen : Prop :=
  ∀ s t : State, step s = .next t → s.state = .ready → t.state = .ready →
    t.len = s.len ∧ t.factor = s.factor ∧ t.cptr = s.cptr ∧ t.coef = s.coef

/-- `MAXTAPS` is a read-only constant of the instance: no step changes it, a hard reset and CLR among them, and
RDS 5 returns it as an unsigned 32-bit word (R29). -/
def Obligations.MaxTapsIsAReadOnlyConstant : Prop :=
  (∀ s t : State, step s = .next t → t.maxTaps = s.maxTaps) ∧
  ∀ s : State, ∃ w : Word, exec (.rds 5) s = .next (s.answer .ok [w]) ∧ (s.maxTaps < 2 ^ 32 → w.toNat = s.maxTaps)

/-! ### Configuration and life cycle -/

/-- CLR tears the filter down, in any state (R70). -/
def Obligations.ClrTearsTheFilterDown : Prop :=
  ∀ s : State, exec .clr s =
    .next ({ s with state := .uninitialized, len := 0, factor := 0, cptr := 0, phase := 0, coef := [],
                    delay := [] }.answer .ok [])

/-- SETLEN stages the length and clears `CPTR`; the elements of `COEF` keep their bits (R71), and none of them holds
a value any more (R30). -/
def Obligations.SetlenStagesTheLength : Prop :=
  ∀ (n : Word) (s : State), s.state = .uninitialized →
    ∃ t, exec (.setlen n) s = .next t ∧ t = { s with len := n, cptr := 0 }.answer .ok [] ∧
      ∀ j, t.heldCoef.read j = none

/-- SETFAC stages the factor and touches nothing else (R72). -/
def Obligations.SetfacStagesTheFactor : Prop :=
  ∀ (n : Word) (s : State), s.state = .uninitialized →
    exec (.setfac n) s = .next ({ s with factor := n }.answer .ok [])

/-- LDC writes its operand, bit for bit, to `COEF[CPTR]`, and adds 1 to `CPTR`; every other element and everything
else is as before (R73). While `CPTR` counts without wrapping, the elements that hold a value are those that held one
and the one written (R30). -/
def Obligations.LdcWritesTheNextCoefficient : Prop :=
  ∀ (v : Word) (s : State), s.state = .uninitialized → s.cptr.toNat < s.maxTaps →
    ∃ t c, exec (.ldc v) s = .next t ∧ t = { s with coef := c, cptr := s.cptr + 1 }.answer .ok [] ∧
      (∀ j, c.read j = if j = s.cptr.toNat then some v else s.coef.read j) ∧
      (s.cptr.toNat + 1 < 2 ^ 32 →
        ∀ j, t.heldCoef.read j = if j = s.cptr.toNat then some v else s.heldCoef.read j)

/-- INIT, when its checks pass, writes `+0.0` to `DELAY[0 .. LEN-1]` and to no other element, clears `PHASE` and
makes the block Ready; everything else is as before (R74). -/
def Obligations.InitZeroFillsAndMakesReady : Prop :=
  ∀ s : State, s.state = .uninitialized → 1 ≤ s32 s.len → 1 ≤ s32 s.factor → s32 s.len ≤ s.maxTaps →
    (s.cptr.toNat : Int) = s32 s.len →
    ∃ d, exec .init s = .next ({ s with delay := d, phase := 0, state := .ready }.answer .ok []) ∧
      ∀ j : Nat, d.read j = if (j : Int) < s32 s.len then some 0 else s.delay.read j

/-- INIT's checks in their order; each failing one answers its code and changes nothing (R74, R121). -/
def Obligations.InitChecksInOrder : Prop :=
  ∀ s : State,
    (s.state = .ready → exec .init s = .next (s.answer .eState [])) ∧
    (s.state = .uninitialized → s32 s.len < 1 → exec .init s = .next (s.answer .eConfig [])) ∧
    (s.state = .uninitialized → 1 ≤ s32 s.len → s32 s.factor < 1 → exec .init s = .next (s.answer .eConfig [])) ∧
    (s.state = .uninitialized → 1 ≤ s32 s.len → 1 ≤ s32 s.factor → s.maxTaps < s32 s.len →
      exec .init s = .next (s.answer .eResource [])) ∧
    (s.state = .uninitialized → 1 ≤ s32 s.len → 1 ≤ s32 s.factor → s32 s.len ≤ s.maxTaps →
      (s.cptr.toNat : Int) ≠ s32 s.len → exec .init s = .next (s.answer .eArg []))

/-- `E_CONFIG`, `E_RESOURCE` and `E_ARG` are answered in exactly the cases R116, R117 and R118 give, with nothing
changed, so that RDS 1 and RDS 2 still show the staged values. -/
def Obligations.ConfigurationFailuresHaveExactlyTheirCauses : Prop :=
  ∀ (i : Instr) (s : State),
    (exec i s = .next (s.answer .eConfig []) ↔
      i = .init ∧ s.state = .uninitialized ∧ (s32 s.len < 1 ∨ s32 s.factor < 1)) ∧
    (exec i s = .next (s.answer .eResource []) ↔
      (∃ v, i = .ldc v) ∧ s.state = .uninitialized ∧ s.maxTaps ≤ s.cptr.toNat ∨
      i = .init ∧ s.state = .uninitialized ∧ 1 ≤ s32 s.len ∧ 1 ≤ s32 s.factor ∧ s.maxTaps < s32 s.len) ∧
    (exec i s = .next (s.answer .eArg []) ↔
      i = .init ∧ s.state = .uninitialized ∧ 1 ≤ s32 s.len ∧ 1 ≤ s32 s.factor ∧ s32 s.len ≤ s.maxTaps ∧
        (s.cptr.toNat : Int) ≠ s32 s.len) ∧
    ∀ t, exec i s = .next t → t.lastStatus ∈ [some .eConfig, some .eResource, some .eArg] →
      (∃ e, t = s.answer e []) ∧ exec (.rds 1) t = .next (t.answer .ok [s.len]) ∧
        exec (.rds 2) t = .next (t.answer .ok [s.factor])

/-! ### The FIR engine -/

/-- APPLY shifts the delay line by one, inserts its operand at index 0 bit for bit, and answers the dot product of
the new delay line and the coefficients; a NaN result is some NaN word, which one being free (R16, R80, R81).
Nothing else changes but the model's counter of drawn NaN words. -/
def Obligations.ApplyShiftsInsertsAndAnswersTheDotProduct : Prop :=
  ∀ (x : Word) (s : State) (prev cs : List Word), s.state = .ready → 1 ≤ s.taps →
    s.delay.readFrom 0 (s.taps - 1) = some prev → s.heldCoef.readFrom 0 s.taps = some cs →
    ∃ d n w, exec (.apply x) s = .next ({ s with delay := d, nanDraws := n }.answer .ok [w]) ∧
      (∀ j, d.read j = if j = 0 then some x else if j < s.taps then s.delay.read (j - 1) else s.delay.read j) ∧
      (∀ v, dot (x :: prev) cs = .word v → w = v ∧ n = s.nanDraws) ∧
      (dot (x :: prev) cs = .unfixedNaN → isNaN w = true)

/-- The output as a formula: from the zero fill of INIT, after the samples `x_0 .. x_(m-1)` the delay line holds
the most recent of them, most recent first, and output `n` is the dot product of `x_n, x_(n-1), ...`, taken as
`+0.0` before the first, with the coefficients (R83). -/
def Obligations.FilterIsDirectFormConvolution : Prop :=
  ∀ (taps : Nat) (coef : Store) (cs xs : List Word), 1 ≤ taps → coef.readFrom 0 taps = some cs →
    ∃ d ys, firRun taps coef xs (Store.zeroFill [] taps) = some (d, ys) ∧ ys.length = xs.length ∧
      (∀ i, i < taps → d.read i = some (if i < xs.length then xs.getD (xs.length - 1 - i) 0 else f32PlusZero)) ∧
      ∀ n, n < xs.length →
        ys[n]? = some (dot ((List.range taps).map fun i => if i ≤ n then xs.getD (n - i) 0 else f32PlusZero) cs)

/-- The impulse response of a freshly initialised filter with finite coefficients is its coefficients, `-0.0`
turned into `+0.0`, and then `+0.0` for ever (R86). -/
def Obligations.ImpulseResponseIsTheCoefficients : Prop :=
  ∀ (taps n : Nat) (coef : Store) (cs : List Word), 1 ≤ taps → coef.readFrom 0 taps = some cs →
    (∀ c ∈ cs, isFinite c = true) →
    ∃ d ys, firRun taps coef (f32PlusOne :: List.replicate n f32PlusZero) (Store.zeroFill [] taps) = some (d, ys) ∧
      ∀ k, k ≤ n → ys[k]? = some (match cs[k]? with
        | some c => .word (if c = f32MinusZero then f32PlusZero else c)
        | none => .word f32PlusZero)

/-! ### Arithmetic -/

/-- The product of two finite words is rounded once, to nearest with ties to even: its sign is the exclusive-or of
the signs, it is infinite exactly when the exact magnitude reaches halfway beyond the largest finite one, and
otherwise no finite word is nearer to the exact product, and of two equally near the even one is taken (R12).
`f32Value` counts in units of 2^-149, so the product counts in units of 2^-298. -/
def Obligations.ProductRoundsOnceToNearestEven : Prop :=
  ∀ a b : Word, isFinite a = true → isFinite b = true →
    ∃ w, fmul a b = .word w ∧ isNaN w = false ∧ f32Sign w = (f32Sign a ^^ f32Sign b) ∧
      (isInf w = true ↔ (2 ^ 25 - 1) * 2 ^ 252 * 2 ^ 149 ≤ (f32Value a * f32Value b).natAbs) ∧
      (isInf w = false → ∀ v : Word, isFinite v = true →
        (f32Value w * 2 ^ 149 - f32Value a * f32Value b).natAbs ≤
          (f32Value v * 2 ^ 149 - f32Value a * f32Value b).natAbs ∧
        ((f32Value w * 2 ^ 149 - f32Value a * f32Value b).natAbs =
            (f32Value v * 2 ^ 149 - f32Value a * f32Value b).natAbs →
          f32Value v ≠ f32Value w → w.getLsbD 0 = false))

/-- The special cases of the product: a NaN for a NaN operand and for zero times infinity, and otherwise infinity
times anything is the infinity of the exclusive-or sign (R12). -/
def Obligations.ProductOfSpecialValues : Prop :=
  ∀ a b : Word,
    (fmul a b = .unfixedNaN ↔ isNaN a = true ∨ isNaN b = true ∨ isZero a = true ∧ isInf b = true ∨
      isInf a = true ∧ isZero b = true) ∧
    ((isInf a = true ∧ isNaN b = false ∧ isZero b = false ∨ isInf b = true ∧ isNaN a = false ∧ isZero a = false) →
      ∃ w, fmul a b = .word w ∧ isInf w = true ∧ f32Sign w = (f32Sign a ^^ f32Sign b))

/-- The sum of two finite words is rounded once, to nearest with ties to even; an exact sum of zero is `+0.0`
unless both operands are `-0.0`; overflow gives the infinity of the sum's sign (R13). -/
def Obligations.SumRoundsOnceToNearestEven : Prop :=
  ∀ a b : Word, isFinite a = true → isFinite b = true →
    ∃ w, fadd a b = .word w ∧ isNaN w = false ∧
      (f32Value a + f32Value b = 0 →
        w = if a = f32MinusZero ∧ b = f32MinusZero then f32MinusZero else f32PlusZero) ∧
      (f32Value a + f32Value b ≠ 0 → f32Sign w = decide (f32Value a + f32Value b < 0)) ∧
      (isInf w = true ↔ (2 ^ 25 - 1) * 2 ^ 252 ≤ (f32Value a + f32Value b).natAbs) ∧
      (isInf w = false → ∀ v : Word, isFinite v = true →
        (f32Value w - (f32Value a + f32Value b)).natAbs ≤ (f32Value v - (f32Value a + f32Value b)).natAbs ∧
        ((f32Value w - (f32Value a + f32Value b)).natAbs = (f32Value v - (f32Value a + f32Value b)).natAbs →
          f32Value v ≠ f32Value w → w.getLsbD 0 = false))

/-- The special cases of the sum: a NaN for a NaN operand and for infinities of opposite sign; otherwise an infinite
operand is the sum (R13). -/
def Obligations.SumOfSpecialValues : Prop :=
  ∀ a b : Word,
    (fadd a b = .unfixedNaN ↔ isNaN a = true ∨ isNaN b = true ∨
      isInf a = true ∧ isInf b = true ∧ f32Sign a ≠ f32Sign b) ∧
    (isInf a = true → isFinite b = true ∨ b = a → fadd a b = .word a) ∧
    (isInf b = true → isFinite a = true ∨ a = b → fadd a b = .word b)

/-- The ordered comparisons: false when either operand is a NaN, else the order of the values; the two zeros compare
equal (R14). -/
def Obligations.ComparisonsAreOrdered : Prop :=
  (∀ a b : Word, fgt a b = true ↔ isNaN a = false ∧ isNaN b = false ∧ f32Value b < f32Value a) ∧
  (∀ a b : Word, flt a b = true ↔ isNaN a = false ∧ isNaN b = false ∧ f32Value a < f32Value b) ∧
  fgt f32PlusZero f32MinusZero = false ∧ flt f32MinusZero f32PlusZero = false

/-! ### The bit unpacker -/

/-- UNPK answers eight samples, `+1.0` for a set bit and `-1.0` for a clear one, bit 0 first, in any state, and
changes nothing: there is no third value (R88, R89). -/
def Obligations.UnpkAnswersTheBitsInTimeOrder : Prop :=
  ∀ (b : Byte) (s : State), ∃ data, exec (.unpk b) s = .next (s.answer .ok data) ∧ data.length = 8 ∧
    ∀ k, k < 8 → data[k]? = some (if b.getLsbD k then 0x3F800000 else 0xBF800000)

/-- Two different bytes give two different groups of eight samples (R90). -/
def Obligations.UnpackingIsInjective : Prop :=
  ∀ b c : Byte, unpackByte b = unpackByte c → b = c

/-! ### The decimator and the quantizer -/

/-- DSYNC clears `PHASE` and touches nothing else, the delay line least of all (R93). -/
def Obligations.DsyncStartsANewFrame : Prop :=
  ∀ s : State, s.state = .ready → exec .dsync s = .next ({ s with phase := 0 }.answer .ok [])

/-- DEC answers its operand bit for bit when the sample is the last of its group, and then `PHASE` is 0; otherwise
it answers nothing and adds 1 to `PHASE`. Nothing else changes (R92, R95, R96). -/
def Obligations.DecAnswersTheLastSampleOfEachGroup : Prop :=
  ∀ (x : Word) (s : State), s.state = .ready → 1 ≤ s32 s.factor → (s.phase.toNat : Int) ≤ s32 s.factor - 1 →
    ((s.phase.toNat : Int) = s32 s.factor - 1 → exec (.dec x) s = .next ({ s with phase := 0 }.answer .ok [x])) ∧
    ((s.phase.toNat : Int) < s32 s.factor - 1 → ∃ p, exec (.dec x) s = .next ({ s with phase := p }.answer .ok []) ∧
      p.toNat = s.phase.toNat + 1)

/-- After `n` samples fed to the decimator since a phase reset, `floor(n / FACTOR)` were kept and
`PHASE = n mod FACTOR` (R94). -/
def Obligations.DecimatorKeepsOneInFactor : Prop :=
  ∀ (factor : Word) (n : Nat), 1 ≤ s32 factor →
    (decRun factor n 0).1 = n / factor.toNat ∧ (decRun factor n 0).2.toNat = n % factor.toNat

/-- QNT of a word that is no NaN answers the sample: the binary32 product with 32767, clipped to
`-32768 .. 32767`, its fraction discarded, sign-extended; nothing changes (R97, R98). -/
def Obligations.QntScalesClipsAndTruncates : Prop :=
  ∀ (x : Word) (s : State), isNaN x = false →
    ∃ v q, fmul x f32Scale = .word v ∧ exec (.qnt x) s = .next (s.answer .ok [sext32 q]) ∧
      q.toInt = max (-32768) (min 32767 ((f32Value v).tdiv (2 ^ 149)))

/-- QNT answers `E_NAN` exactly when its operand is a NaN, with no sample and nothing changed (R98, R100). -/
def Obligations.QntRefusesExactlyTheNaNs : Prop :=
  ∀ (x : Word) (s : State), exec (.qnt x) s = .next (s.answer .eNan []) ↔ isNaN x = true

/-- The quantizer is monotone (R99). -/
def Obligations.QuantizerIsMonotone : Prop :=
  ∀ x y : Word, isNaN x = false → isNaN y = false → f32Value x ≤ f32Value y →
    ∃ p q, quantize x = some p ∧ quantize y = some q ∧ p.toInt ≤ q.toInt

/-- `quantize(-x) = -quantize(x)` whenever neither is -32768 (R99). -/
def Obligations.QuantizerIsOddAwayFromTheLowerBound : Prop :=
  ∀ (x : Word) (p q : Sample), quantize x = some p → quantize (x ^^^ 0x80000000) = some q →
    p ≠ -32768 → q ≠ -32768 → q = -p

/-- Corner cases of the quantizer, by bit pattern (R99). -/
def Obligations.QuantizerCornerCases : Prop :=
  quantize 0x00000000 = some 0 ∧ quantize 0x80000000 = some 0 ∧ quantize 0x3F800000 = some 32767 ∧
  quantize 0xBF800000 = some (-32767) ∧ quantize 0x7F800000 = some 32767 ∧ quantize 0x7F7FFFFF = some 32767 ∧
  quantize 0xBF800100 = some (-32768) ∧ quantize 0xFF800000 = some (-32768) ∧ quantize 0x3F7FFFFF = some 32766 ∧
  quantize 0x38000100 = some 1 ∧ quantize 0xB8000100 = some (-1) ∧ quantize 0x380000FF = some 0 ∧
  quantize 0x00000001 = some 0 ∧ quantize 0x7FC00000 = none

/-! ### The pipeline -/

/-- CONV in closed form. Sample `k` of the byte meets a delay line that holds bits `k` down to 0 and then the old
elements; it is kept when it is the last of its group. If some kept output is a NaN, the answer is `E_NAN` and
nothing changes; otherwise the answer is the quantized kept outputs in time order, `DELAY` has moved by eight
samples, and `PHASE` by eight modulo `FACTOR` (R102, R103, R104). -/
def Obligations.ConvRunsThePipelineOnOneByte : Prop :=
  ∀ (b : Byte) (s : State) (old cs : List Word), s.state = .ready → s.ReadyInv →
    s.delay.readFrom 0 s.taps = some old → s.heldCoef.readFrom 0 s.taps = some cs →
    ((∃ k, k < 8 ∧ convKeeps s.factor s.phase k = true ∧
        quantizeResult (convOutput s.taps old cs b k) = none) →
      exec (.conv b) s = .next (s.answer .eNan [])) ∧
    ((∀ k, k < 8 → convKeeps s.factor s.phase k = true →
        quantizeResult (convOutput s.taps old cs b k) ≠ none) →
      ∃ d p, exec (.conv b) s = .next ({ s with delay := d, phase := p }.answer .ok
          (((List.range 8).filter (convKeeps s.factor s.phase)).filterMap
            fun k => (quantizeResult (convOutput s.taps old cs b k)).map sext32)) ∧
        p.toNat = (s.phase.toNat + 8) % s.factor.toNat ∧
        ∀ j, d.read j = if j < s.taps then (if j < 8 then some (unpackBit b (7 - j)) else s.delay.read (j - 8))
          else s.delay.read j)

/-- With finite coefficients, and every element of the delay line a sample `+1.0` or `-1.0` or still a zero, CONV
never answers `E_NAN` (each product is finite, and a sum of finite terms cannot meet the opposite infinity: R12, R13,
R80): it completes, with `floor((PHASE + 8) / FACTOR)` samples (R102, R103). -/
def Obligations.ConvCompletesOnPdmHistoryWithFiniteCoefficients : Prop :=
  ∀ (b : Byte) (s : State), s.state = .ready → s.ReadyInv →
    (∀ i w, i < s.taps → s.heldCoef.read i = some w → isFinite w = true) →
    (∀ i w, i < s.taps → s.delay.read i = some w → w = f32PlusOne ∨ w = f32MinusOne ∨ isZero w = true) →
    ∃ d p data, exec (.conv b) s = .next ({ s with delay := d, phase := p }.answer .ok data) ∧
      data.length = (s.phase.toNat + 8) / s.factor.toNat

/-- CONV equals its parts: when it answers `OK`, the commands UNPK, then APPLY, DEC and, for a kept sample, QNT,
answer the same samples and leave the same state of the block (R105). -/
def Obligations.ConvEqualsItsParts : Prop :=
  ∀ (b : Byte) (s t : State) (data : List Word), exec (.conv b) s = .next t → t.lastResponse = some ⟨.ok, data⟩ →
    ∃ u, parts b s = some (u, data) ∧
      u = { t with pending := u.pending, responses := u.responses, nanDraws := u.nanDraws }

/-- `E_NAN` comes from QNT and CONV only (R120): APPLY and DEC return or pass on a NaN as data. -/
def Obligations.OnlyTheQuantizerAnswersENan : Prop :=
  ∀ (i : Instr) (s t : State), exec i s = .next t → t.lastStatus = some .eNan →
    (∃ x, i = .qnt x ∧ isNaN x = true) ∨ (∃ b, i = .conv b) ∧ s.state = .ready

/-! ### Read-back -/

/-- RDS answers the control register of its number, in any state, and `E_RANGE` for every number from 6 on (R107). -/
def Obligations.RdsAnswersTheControlRegisters : Prop :=
  ∀ s : State,
    exec (.rds 0) s = .next (s.answer .ok [if s.state = .ready then 1 else 0]) ∧
    exec (.rds 1) s = .next (s.answer .ok [s.len]) ∧
    exec (.rds 2) s = .next (s.answer .ok [s.factor]) ∧
    exec (.rds 3) s = .next (s.answer .ok [s.cptr]) ∧
    exec (.rds 4) s = .next (s.answer .ok [s.phase]) ∧
    exec (.rds 5) s = .next (s.answer .ok [BitVec.ofNat 32 s.maxTaps]) ∧
    ∀ r : Word, 6 ≤ r.toNat → exec (.rds r) s = .next (s.answer .eRange [])

/-- RDC answers the coefficient of its index, in any state, and `E_RANGE` from `CPTR` on, unsigned (R109). -/
def Obligations.RdcAnswersTheCoefficient : Prop :=
  ∀ (i : Word) (s : State),
    (∀ w, i.toNat < s.cptr.toNat → s.heldCoef.read i.toNat = some w → exec (.rdc i) s = .next (s.answer .ok [w])) ∧
    (s.cptr.toNat ≤ i.toNat → exec (.rdc i) s = .next (s.answer .eRange []))

/-- RDD answers the delay-line element of its index, in state Ready, and `E_RANGE` from `LEN` on, unsigned
(R110). -/
def Obligations.RddAnswersTheDelayLineElement : Prop :=
  ∀ (i : Word) (s : State), s.state = .ready →
    (∀ w, i.toNat < s.len.toNat → s.delay.read i.toNat = some w → exec (.rdd i) s = .next (s.answer .ok [w])) ∧
    (s.len.toNat ≤ i.toNat → exec (.rdd i) s = .next (s.answer .eRange []))

/-- `E_RANGE` is answered in exactly the cases R119 gives. -/
def Obligations.RangeFailuresHaveExactlyTheirCauses : Prop :=
  ∀ (i : Instr) (s : State), exec i s = .next (s.answer .eRange []) ↔
    (∃ r : Word, i = .rds r ∧ 6 ≤ r.toNat) ∨ (∃ k : Word, i = .rdc k ∧ s.cptr.toNat ≤ k.toNat) ∨
    ∃ k : Word, i = .rdd k ∧ s.state = .ready ∧ s.len.toNat ≤ k.toNat

/-- The three read commands have no side effect: a read, failed or not, changes nothing but the host's side, and
repeated with no command in between it answers the same (R108). -/
def Obligations.ReadsHaveNoSideEffect : Prop :=
  ∀ (i : Instr) (s t : State), ((∃ r, i = .rds r) ∨ (∃ k, i = .rdc k) ∨ ∃ k, i = .rdd k) → exec i s = .next t →
    ∃ r : Response, t = s.answer r.status r.data ∧ exec i t = .next (t.answer r.status r.data)

/-- UNPK and QNT change nothing but the host's side (R43, R89, R98). -/
def Obligations.UnpkAndQntTouchNoState : Prop :=
  ∀ (i : Instr) (s t : State), ((∃ b, i = .unpk b) ∨ ∃ x, i = .qnt x) → exec i s = .next t →
    ∃ r : Response, t = s.answer r.status r.data

/-- A command faults exactly when an element of a store that it reads holds no value, and answers a next state
exactly when every element it reads holds one; in a sound state every command reads only elements that hold a value
(R19). That the stop on such an element is the fault `noValue` is the model's choice (log 7). -/
def Obligations.OnlyValuelessElementsFault : Prop :=
  ∀ (i : Instr) (s : State),
    (s.Inv → readsOnlyValues i s) ∧
    (readsOnlyValues i s ↔ ∃ t, exec i s = .next t) ∧
    (¬ readsOnlyValues i s ↔ exec i s = .fault .noValue)

/-! ### Responses -/

/-- The header byte of a response: the status in bits 7 to 4, with the codes of R112's table, and the number of data
words in bits 3 to 0; the codes 8 to 15 are never produced (R52, R112). -/
def Obligations.HeaderByteCarriesStatusAndCount : Prop :=
  (∀ r : Response, r.data.length ≤ 8 → r.header.toNat / 16 = r.status.code.toNat ∧
    r.header.toNat % 16 = r.data.length) ∧
  Status.ok.code = 0 ∧ Status.eIllegal.code = 1 ∧ Status.eState.code = 2 ∧ Status.eConfig.code = 3 ∧
  Status.eResource.code = 4 ∧ Status.eArg.code = 5 ∧ Status.eRange.code = 6 ∧ Status.eNan.code = 7 ∧
  ∀ e : Status, e.code.toNat ≤ 7

/-! ### The arithmetic of the filter -/

/-- The arithmetic of the dot product (R80): it starts at `+0.0`; the taps are added in ascending order, the last one
last; each tap adds the rounded product to the partial sum and rounds the sum, `fadd(acc, fmul(d, c))`, with no fused
operation and no wider accumulator; a NaN product or partial sum makes the result a NaN. -/
def Obligations.DotProductRoundsEachTapInAscendingOrder : Prop :=
  dot [] [] = .word 0x00000000 ∧
  ∀ (ds cs : List Word) (d c : Word), ds.length = cs.length →
    dot (ds ++ [d]) (cs ++ [c]) =
      match dot ds cs, fmul d c with
      | .word acc, .word p => fadd acc p
      | _, _ => .unfixedNaN

/-! ### Which coefficients hold a value -/

/-- An element of `COEF` at or above `CPTR` holds no value, whatever bits it keeps; one below `CPTR` reads as the state
keeps it (R30, R71). In a sound state each element below `CPTR` does hold a value, which is part of `State.Inv` and not
said here. That the state keeps the bits beside them is the model's reading of R71 (log 8). -/
def Obligations.CoefficientsHoldValuesBelowCptrOnly : Prop :=
  ∀ (s : State) (j : Nat), s.heldCoef.read j = if j < s.cptr.toNat then s.coef.read j else none
end

