-- ==== Sys2Proof/Laws/State.lean ====
section
/-! SUPPORT. One lemma per field per update of State: answering, clearing, hard reset, presenting a word. -/

namespace Sys2Proof.Machine

/-! ### Answering a command -/

@[simp] theorem State.answer_state (s : State) (e : Status) (data : List Word) :
    (s.answer e data).state = s.state := rfl

@[simp] theorem State.answer_len (s : State) (e : Status) (data : List Word) :
    (s.answer e data).len = s.len := rfl

@[simp] theorem State.answer_factor (s : State) (e : Status) (data : List Word) :
    (s.answer e data).factor = s.factor := rfl

@[simp] theorem State.answer_cptr (s : State) (e : Status) (data : List Word) :
    (s.answer e data).cptr = s.cptr := rfl

@[simp] theorem State.answer_phase (s : State) (e : Status) (data : List Word) :
    (s.answer e data).phase = s.phase := rfl

@[simp] theorem State.answer_coef (s : State) (e : Status) (data : List Word) :
    (s.answer e data).coef = s.coef := rfl

@[simp] theorem State.answer_heldCoef (s : State) (e : Status) (data : List Word) :
    (s.answer e data).heldCoef = s.heldCoef := rfl

@[simp] theorem State.answer_delay (s : State) (e : Status) (data : List Word) :
    (s.answer e data).delay = s.delay := rfl

@[simp] theorem State.answer_maxTaps (s : State) (e : Status) (data : List Word) :
    (s.answer e data).maxTaps = s.maxTaps := rfl

@[simp] theorem State.answer_pending (s : State) (e : Status) (data : List Word) :
    (s.answer e data).pending = s.pending.tail := rfl

@[simp] theorem State.answer_responses (s : State) (e : Status) (data : List Word) :
    (s.answer e data).responses = s.responses ++ [⟨e, data⟩] := rfl

@[simp] theorem State.answer_nanDraws (s : State) (e : Status) (data : List Word) :
    (s.answer e data).nanDraws = s.nanDraws := rfl

@[simp] theorem State.answer_taps (s : State) (e : Status) (data : List Word) :
    (s.answer e data).taps = s.taps := rfl

@[simp] theorem State.answer_lastResponse (s : State) (e : Status) (data : List Word) :
    (s.answer e data).lastResponse = some ⟨e, data⟩ := by simp [State.lastResponse]

@[simp] theorem State.answer_lastStatus (s : State) (e : Status) (data : List Word) :
    (s.answer e data).lastStatus = some e := by simp [State.lastStatus]

/-! ### Clearing the block -/

@[simp] theorem State.clearBlock_state (s : State) : s.clearBlock.state = .uninitialized := rfl

@[simp] theorem State.clearBlock_len (s : State) : s.clearBlock.len = 0 := rfl

@[simp] theorem State.clearBlock_factor (s : State) : s.clearBlock.factor = 0 := rfl

@[simp] theorem State.clearBlock_cptr (s : State) : s.clearBlock.cptr = 0 := rfl

@[simp] theorem State.clearBlock_phase (s : State) : s.clearBlock.phase = 0 := rfl

@[simp] theorem State.clearBlock_coef (s : State) : s.clearBlock.coef = [] := rfl

@[simp] theorem State.clearBlock_heldCoef (s : State) : s.clearBlock.heldCoef = [] := rfl

@[simp] theorem State.clearBlock_delay (s : State) : s.clearBlock.delay = [] := rfl

@[simp] theorem State.clearBlock_maxTaps (s : State) : s.clearBlock.maxTaps = s.maxTaps := rfl

@[simp] theorem State.clearBlock_pending (s : State) : s.clearBlock.pending = s.pending := rfl

@[simp] theorem State.clearBlock_responses (s : State) : s.clearBlock.responses = s.responses := rfl

@[simp] theorem State.clearBlock_nanDraws (s : State) : s.clearBlock.nanDraws = s.nanDraws := rfl

/-! ### Hard reset -/

@[simp] theorem State.hardReset_state (s : State) : s.hardReset.state = .uninitialized := rfl

@[simp] theorem State.hardReset_len (s : State) : s.hardReset.len = 0 := rfl

@[simp] theorem State.hardReset_factor (s : State) : s.hardReset.factor = 0 := rfl

@[simp] theorem State.hardReset_cptr (s : State) : s.hardReset.cptr = 0 := rfl

@[simp] theorem State.hardReset_phase (s : State) : s.hardReset.phase = 0 := rfl

@[simp] theorem State.hardReset_coef (s : State) : s.hardReset.coef = [] := rfl

@[simp] theorem State.hardReset_heldCoef (s : State) : s.hardReset.heldCoef = [] := rfl

@[simp] theorem State.hardReset_delay (s : State) : s.hardReset.delay = [] := rfl

@[simp] theorem State.hardReset_maxTaps (s : State) : s.hardReset.maxTaps = s.maxTaps := rfl

@[simp] theorem State.hardReset_pending (s : State) : s.hardReset.pending = s.pending.tail := rfl

@[simp] theorem State.hardReset_responses (s : State) : s.hardReset.responses = s.responses := rfl

@[simp] theorem State.hardReset_nanDraws (s : State) : s.hardReset.nanDraws = s.nanDraws := rfl

/-! ### Presenting a word -/

@[simp] theorem State.withFetchWord_state (s : State) (nbits w : Nat) :
    (s.withFetchWord nbits w).state = s.state := rfl

@[simp] theorem State.withFetchWord_len (s : State) (nbits w : Nat) :
    (s.withFetchWord nbits w).len = s.len := rfl

@[simp] theorem State.withFetchWord_factor (s : State) (nbits w : Nat) :
    (s.withFetchWord nbits w).factor = s.factor := rfl

@[simp] theorem State.withFetchWord_cptr (s : State) (nbits w : Nat) :
    (s.withFetchWord nbits w).cptr = s.cptr := rfl

@[simp] theorem State.withFetchWord_phase (s : State) (nbits w : Nat) :
    (s.withFetchWord nbits w).phase = s.phase := rfl

@[simp] theorem State.withFetchWord_coef (s : State) (nbits w : Nat) :
    (s.withFetchWord nbits w).coef = s.coef := rfl

@[simp] theorem State.withFetchWord_heldCoef (s : State) (nbits w : Nat) :
    (s.withFetchWord nbits w).heldCoef = s.heldCoef := rfl

@[simp] theorem State.withFetchWord_delay (s : State) (nbits w : Nat) :
    (s.withFetchWord nbits w).delay = s.delay := rfl

@[simp] theorem State.withFetchWord_maxTaps (s : State) (nbits w : Nat) :
    (s.withFetchWord nbits w).maxTaps = s.maxTaps := rfl

@[simp] theorem State.withFetchWord_pending (s : State) (nbits w : Nat) :
    (s.withFetchWord nbits w).pending = .command (tableWord nbits w) :: s.pending.tail := rfl

@[simp] theorem State.withFetchWord_responses (s : State) (nbits w : Nat) :
    (s.withFetchWord nbits w).responses = s.responses := rfl

@[simp] theorem State.withFetchWord_nanDraws (s : State) (nbits w : Nat) :
    (s.withFetchWord nbits w).nanDraws = s.nanDraws := rfl

/-! ### The machine after reset -/

@[simp] theorem State.reset_state : State.reset.state = .uninitialized := rfl

@[simp] theorem State.reset_len : State.reset.len = 0 := rfl

@[simp] theorem State.reset_factor : State.reset.factor = 0 := rfl

@[simp] theorem State.reset_cptr : State.reset.cptr = 0 := rfl

@[simp] theorem State.reset_phase : State.reset.phase = 0 := rfl

@[simp] theorem State.reset_coef : State.reset.coef = [] := rfl

@[simp] theorem State.reset_heldCoef : State.reset.heldCoef = [] := rfl

@[simp] theorem State.reset_delay : State.reset.delay = [] := rfl

@[simp] theorem State.reset_maxTaps : State.reset.maxTaps = Config.maxTaps := rfl

@[simp] theorem State.reset_pending : State.reset.pending = [] := rfl

@[simp] theorem State.reset_responses : State.reset.responses = [] := rfl

@[simp] theorem State.reset_nanDraws : State.reset.nanDraws = 0 := rfl

/-- `MAXTAPS` is at least 1 (R4). -/
theorem Config.maxTaps_pos : 1 ≤ Config.maxTaps := Nat.le_add_left 1 _

/-- `MAXTAPS` fits the 32-bit word that RDS 5 returns (R29; log 2, DEDUCED). -/
theorem Config.maxTaps_lt : Config.maxTaps < 2 ^ 32 := by
  have := Config.maxTapsLessOne.isLt
  unfold Config.maxTaps
  omega

end Sys2Proof.Machine
end

