-- ==== Sys2Proof/Laws/Float.lean ====
section
/-! SUPPORT. The laws of the binary32 primitives: the fields of a word as numbers, packing, the classes, and
what one rounding does. -/

namespace Sys2Proof.Machine

/-! ### The fields of a word as numbers -/

theorem f32Exponent_eq (w : Word) : f32Exponent w = w.toNat / 2 ^ 23 % 2 ^ 8 := by
  simp [f32Exponent, BitVec.extractLsb'_toNat, Nat.shiftRight_eq_div_pow]

theorem f32Fraction_eq (w : Word) : f32Fraction w = w.toNat % 2 ^ 23 := by
  simp [f32Fraction, BitVec.extractLsb'_toNat]

theorem f32Sign_eq (w : Word) : f32Sign w = decide (2 ^ 31 ≤ w.toNat) := by
  have hlt := w.isLt
  simp only [f32Sign, BitVec.getLsbD, Nat.testBit_eq_decide_div_mod_eq]
  congr 1
  apply propext
  omega

theorem f32Exponent_le (w : Word) : f32Exponent w ≤ 255 := by
  rw [f32Exponent_eq]
  omega

theorem f32Fraction_lt (w : Word) : f32Fraction w < 2 ^ 23 := by
  rw [f32Fraction_eq]
  exact Nat.mod_lt _ (by norm_num)

theorem isZero_eq (w : Word) : isZero w = decide (w.toNat % 2 ^ 31 = 0) := by
  simp only [isZero, Bool.beq_eq_decide_eq]
  congr 1
  apply propext
  rw [← BitVec.toNat_inj]
  simp [BitVec.extractLsb'_toNat]

/-! ### Packing -/

theorem f32Pack_toNat (negative : Bool) {m : Nat} (hm : m < 2 ^ 31) :
    (f32Pack negative m).toNat = (if negative then 2 ^ 31 else 0) + m := by
  have h : (f32Pack negative m).toNat = (BitVec.ofBool negative).toNat * 2 ^ 31 + m % 2 ^ 31 := by
    unfold f32Pack
    rw [BitVec.toNat_append, ← Nat.shiftLeft_add_eq_or_of_lt (BitVec.isLt _), Nat.shiftLeft_eq]
    simp
  rw [h, Nat.mod_eq_of_lt hm]
  cases negative <;> simp

@[simp] theorem f32Sign_pack (negative : Bool) {m : Nat} (hm : m < 2 ^ 31) :
    f32Sign (f32Pack negative m) = negative := by
  rw [f32Sign_eq, f32Pack_toNat _ hm]
  cases negative
  · simpa using hm
  · simp

theorem f32Exponent_pack (negative : Bool) {m : Nat} (hm : m < 2 ^ 31) :
    f32Exponent (f32Pack negative m) = m / 2 ^ 23 := by
  rw [f32Exponent_eq, f32Pack_toNat _ hm]
  split <;> omega

theorem f32Fraction_pack (negative : Bool) {m : Nat} (hm : m < 2 ^ 31) :
    f32Fraction (f32Pack negative m) = m % 2 ^ 23 := by
  rw [f32Fraction_eq, f32Pack_toNat _ hm]
  split <;> omega

/-- Every word is the packing of its sign and its low 31 bits. -/
theorem f32Pack_eta (w : Word) : f32Pack (f32Sign w) (w.toNat % 2 ^ 31) = w := by
  rw [← BitVec.toNat_inj, f32Pack_toNat _ (Nat.mod_lt _ (by norm_num)), f32Sign_eq]
  have := w.isLt
  simp only [decide_eq_true_eq]
  split <;> omega

/-! ### The classes -/

theorem isNaN_pack (negative : Bool) {m : Nat} (hm : m < 2 ^ 31) :
    isNaN (f32Pack negative m) = decide (f32InfBits < m) := by
  rw [Bool.eq_iff_iff, decide_eq_true_eq]
  simp only [isNaN, f32Exponent_pack _ hm, f32Fraction_pack _ hm, f32InfBits, Bool.and_eq_true, beq_iff_eq,
    bne_iff_ne]
  omega

theorem isInf_pack (negative : Bool) {m : Nat} (hm : m < 2 ^ 31) :
    isInf (f32Pack negative m) = decide (m = f32InfBits) := by
  rw [Bool.eq_iff_iff, decide_eq_true_eq]
  simp only [isInf, f32Exponent_pack _ hm, f32Fraction_pack _ hm, f32InfBits, Bool.and_eq_true, beq_iff_eq]
  omega

theorem isZero_pack (negative : Bool) {m : Nat} (hm : m < 2 ^ 31) :
    isZero (f32Pack negative m) = decide (m = 0) := by
  rw [isZero_eq, f32Pack_toNat _ hm, Bool.eq_iff_iff]
  simp only [decide_eq_true_eq]
  split <;> omega

/-- Every NaN word that is drawn is a NaN word (R16). -/
theorem isNaN_freeNaN (n : Nat) : isNaN (Config.freeNaN n) = true := by
  have hlt := (Config.freeNaNFraction n).isLt
  have hfrac : (BitVec.ofNat 23 ((Config.freeNaNFraction n).val + 1)).toNat =
      (Config.freeNaNFraction n).val + 1 := by
    rw [BitVec.toNat_ofNat]
    exact Nat.mod_eq_of_lt (by omega)
  have hnat : (Config.freeNaN n).toNat = (BitVec.ofBool (Config.freeNaNSign n)).toNat * 2 ^ 31 + 255 * 2 ^ 23 +
      ((Config.freeNaNFraction n).val + 1) := by
    unfold Config.freeNaN
    rw [BitVec.toNat_append, ← Nat.shiftLeft_add_eq_or_of_lt (BitVec.isLt _), Nat.shiftLeft_eq,
      BitVec.toNat_append, ← Nat.shiftLeft_add_eq_or_of_lt (BitVec.isLt _), Nat.shiftLeft_eq, hfrac]
    norm_num
    ring
  have hs := (BitVec.ofBool (Config.freeNaNSign n)).isLt
  simp only [isNaN, f32Exponent_eq, f32Fraction_eq, hnat, Bool.and_eq_true, beq_iff_eq, bne_iff_ne]
  omega

/-- The NaN words are exactly the words `Config.freeNaN` is built to be: some sign, exponent 255, some non-zero
fraction (R10, R16). -/
theorem isNaN_iff_pack (w : Word) :
    isNaN w = true ↔ ∃ negative f, f < 8388607 ∧ w = f32Pack negative (f32InfBits + (f + 1)) := by
  have hlt := w.isLt
  constructor
  · intro h
    simp only [isNaN, f32Exponent_eq, f32Fraction_eq, Bool.and_eq_true, beq_iff_eq, bne_iff_ne] at h
    refine ⟨f32Sign w, w.toNat % 2 ^ 23 - 1, by omega, ?_⟩
    conv_lhs => rw [← f32Pack_eta w]
    congr 1
    simp only [f32InfBits]
    omega
  · rintro ⟨negative, f, hf, rfl⟩
    rw [isNaN_pack]
    · simp
    · simp only [f32InfBits]
      omega

/-! ### Rounding -/

theorem f32Round_le (n k : Nat) : f32Round n k ≤ f32InfBits := Nat.min_le_right _ _

theorem f32Round_lt (n k : Nat) : f32Round n k < 2 ^ 31 :=
  Nat.lt_of_le_of_lt (f32Round_le n k) (by norm_num [f32InfBits])

@[simp] theorem f32Round_zero (k : Nat) : f32Round 0 k = 0 := by
  simp [f32Round]

/-- The magnitude of a packed pattern: the pattern's binade and fraction (R9). -/
theorem f32Magnitude_pack (negative : Bool) {m : Nat} (hm : m < 2 ^ 31) :
    f32Magnitude (f32Pack negative m) =
      if m < 2 ^ 23 then m else (2 ^ 23 + m % 2 ^ 23) * 2 ^ (m / 2 ^ 23 - 1) := by
  simp only [f32Magnitude, f32Exponent_pack _ hm, f32Fraction_pack _ hm]
  by_cases h : m < 2 ^ 23
  · rw [if_pos h, if_pos (Nat.div_eq_of_lt h), Nat.mod_eq_of_lt h]
  · rw [if_neg h, if_neg]
    intro h0
    exact h ((Nat.div_eq_zero_iff_lt (by norm_num)).mp h0)

theorem f32Value_pack (negative : Bool) {m : Nat} (hm : m < 2 ^ 31) :
    f32Value (f32Pack negative m) =
      if negative then -(f32Magnitude (f32Pack negative m) : Int) else f32Magnitude (f32Pack negative m) := by
  simp only [f32Value, f32Sign_pack _ hm]

/-! ### What the operations answer -/

/-- `fmul` answers a NaN exactly for a NaN operand or zero times infinity (R12). -/
theorem fmul_eq_nan_iff (a b : Word) : fmul a b = .unfixedNaN ↔
    isNaN a = true ∨ isNaN b = true ∨ isZero a = true ∧ isInf b = true ∨ isInf a = true ∧ isZero b = true := by
  unfold fmul
  split
  · next h => simp only [true_iff]; simp only [Bool.or_eq_true] at h; tauto
  · next h =>
    simp only [Bool.or_eq_true, not_or] at h
    split
    · next h2 => simp only [Bool.or_eq_true, Bool.and_eq_true] at h2; simp only [true_iff]; tauto
    · next h2 =>
      simp only [Bool.or_eq_true, Bool.and_eq_true, not_or] at h2
      split <;> simp only [reduceCtorEq, false_iff] <;> tauto

/-- `fadd` answers a NaN exactly for a NaN operand or infinities of opposite sign (R13). -/
theorem fadd_eq_nan_iff (a b : Word) : fadd a b = .unfixedNaN ↔
    isNaN a = true ∨ isNaN b = true ∨ isInf a = true ∧ isInf b = true ∧ f32Sign a ≠ f32Sign b := by
  unfold fadd
  split
  · next h => simp only [true_iff]; simp only [Bool.or_eq_true] at h; tauto
  · next h =>
    simp only [Bool.or_eq_true, not_or] at h
    split
    · next h2 => simp only [Bool.and_eq_true, bne_iff_ne] at h2; simp only [true_iff]; tauto
    · next h2 =>
      simp only [Bool.and_eq_true, bne_iff_ne, not_and] at h2
      split <;> [skip; split <;> [skip; split]] <;> simp only [reduceCtorEq, false_iff] <;> tauto

/-- A word that `fmul` answers is no NaN: a produced NaN is never a word. -/
theorem isNaN_of_fmul {a b w : Word} (h : fmul a b = .word w) : isNaN w = false := by
  unfold fmul at h
  split at h
  · simp at h
  · split at h
    · simp at h
    · split at h <;> simp only [FloatResult.word.injEq] at h <;> subst h
      · rw [isNaN_pack _ (by norm_num [f32InfBits])]
        simp
      · rw [isNaN_pack _ (f32Round_lt _ _)]
        simpa using f32Round_le _ _

/-- A word that `fadd` answers is no NaN. -/
theorem isNaN_of_fadd {a b w : Word} (h : fadd a b = .word w) : isNaN w = false := by
  unfold fadd at h
  split at h
  · simp at h
  · next hnan =>
    simp only [Bool.or_eq_true, not_or, Bool.not_eq_true] at hnan
    split at h
    · simp at h
    · split at h
      · simp only [FloatResult.word.injEq] at h
        exact h ▸ hnan.1
      · split at h
        · simp only [FloatResult.word.injEq] at h
          exact h ▸ hnan.2
        · split at h <;> simp only [FloatResult.word.injEq] at h <;> subst h
          · rw [isNaN_pack _ (by norm_num)]
            simp
          · rw [isNaN_pack _ (f32Round_lt _ _)]
            simpa using f32Round_le _ _

end Sys2Proof.Machine
end

