-- ==== Sys2Proof/Laws/Store.lean ====
section
/-! SUPPORT. The laws of the two stores: read after write, the canonical form, zero fill, shift and reading a
range. -/

namespace Sys2Proof.Machine

/-! ### Read after write -/

@[simp] theorem Store.read_nil (i : Nat) : Store.read [] i = none := rfl

/-- What a write does, as reads see it: the element written, and every other element as before. -/
theorem Store.read_write (st : Store) (i j : Nat) (v : Word) :
    (st.write i v).read j = if j = i then some v else st.read j := by
  induction st with
  | nil => simp [Store.write, Store.read]
  | cons p rest ih =>
    obtain ⟨k, u⟩ := p
    by_cases h1 : i < k
    · simp only [Store.write, h1, if_true, Store.read]
    · by_cases h2 : i = k
      · subst h2
        simp only [Store.write, lt_irrefl, if_false, if_true, Store.read]
        split <;> rfl
      · simp only [Store.write, h1, h2, if_false, Store.read, ih]
        by_cases h3 : j = k
        · simp [h3, Ne.symm h2]
        · simp [h3]

@[simp] theorem Store.read_write_same (st : Store) (i : Nat) (v : Word) : (st.write i v).read i = some v := by
  simp [Store.read_write]

theorem Store.read_write_other (st : Store) {i j : Nat} (v : Word) (h : j ≠ i) :
    (st.write i v).read j = st.read j := by
  simp [Store.read_write, h]

/-! ### The canonical form -/

@[simp] theorem Store.wf_nil (cap : Nat) : Store.wf cap [] := by simp [Store.wf]

theorem Store.mem_write {st : Store} {i : Nat} {v : Word} {p : Nat × Word} (h : p ∈ st.write i v) :
    p = (i, v) ∨ p ∈ st := by
  induction st with
  | nil => simpa [Store.write] using h
  | cons q rest ih =>
    obtain ⟨k, u⟩ := q
    simp only [Store.write] at h
    split at h
    · simpa using h
    · split at h
      · rcases List.mem_cons.mp h with h | h
        · exact .inl h
        · exact .inr (List.mem_cons_of_mem _ h)
      · rcases List.mem_cons.mp h with h | h
        · exact .inr (by simp [h])
        · exact (ih h).imp_right (List.mem_cons_of_mem _)

/-- A write inside the index space keeps the canonical form. -/
theorem Store.wf_write {cap : Nat} {st : Store} {i : Nat} (v : Word) (h : st.wf cap) (hi : i < cap) :
    (st.write i v).wf cap := by
  refine ⟨?_, fun p hp => ?_⟩
  · induction st with
    | nil => simp [Store.write]
    | cons q rest ih =>
      obtain ⟨k, u⟩ := q
      obtain ⟨hsort, hcap⟩ := h
      rw [List.pairwise_cons] at hsort
      have hrest : Store.wf cap rest := ⟨hsort.2, fun p hp => hcap p (List.mem_cons_of_mem _ hp)⟩
      simp only [Store.write]
      split
      · next hlt =>
        refine List.pairwise_cons.mpr ⟨fun p hp => ?_, List.pairwise_cons.mpr hsort⟩
        rcases List.mem_cons.mp hp with rfl | hp
        · exact hlt
        · exact lt_trans hlt (hsort.1 p hp)
      · split
        · next heq => exact List.pairwise_cons.mpr ⟨fun p hp => heq ▸ hsort.1 p hp, hsort.2⟩
        · next hnlt hne =>
          refine List.pairwise_cons.mpr ⟨fun p hp => ?_, ih hrest⟩
          rcases Store.mem_write hp with rfl | hp
          · show k < i
            omega
          · exact hsort.1 p hp
  · rcases Store.mem_write hp with rfl | hp
    · exact hi
    · exact h.2 p hp

theorem Store.mem_of_read {st : Store} {i : Nat} {v : Word} (h : st.read i = some v) : (i, v) ∈ st := by
  induction st with
  | nil => simp at h
  | cons p rest ih =>
    obtain ⟨k, u⟩ := p
    simp only [Store.read] at h
    split at h
    · next heq => simp_all
    · exact List.mem_cons_of_mem _ (ih h)

/-- An element that holds a value is inside the index space. -/
theorem Store.lt_of_read {cap : Nat} {st : Store} {i : Nat} (hwf : st.wf cap) (h : (st.read i).isSome) :
    i < cap := by
  obtain ⟨v, hv⟩ := Option.isSome_iff_exists.mp h
  exact hwf.2 _ (Store.mem_of_read hv)

theorem Store.read_eq_none_of_lt {st : Store} {i : Nat} (h : ∀ p ∈ st, i < p.1) : st.read i = none := by
  induction st with
  | nil => rfl
  | cons p rest ih =>
    obtain ⟨k, u⟩ := p
    have hk : i < k := h (k, u) (by simp)
    simp only [Store.read, if_neg (Nat.ne_of_lt hk)]
    exact ih fun p hp => h p (List.mem_cons_of_mem _ hp)

/-! ### The elements below a bound -/

/-- What the elements below a bound are, as reads see them. -/
theorem Store.read_below (st : Store) (n i : Nat) : (st.below n).read i = if i < n then st.read i else none := by
  induction st with
  | nil => simp [Store.below]
  | cons p rest ih =>
    obtain ⟨k, u⟩ := p
    simp only [Store.below] at ih
    simp only [Store.below, List.filter_cons, decide_eq_true_eq]
    by_cases hi : i = k
    · subst hi
      by_cases hk : i < n
      · simp [Store.read, hk]
      · simpa [hk] using ih
    · by_cases hk : k < n
      · simp [Store.read, hk, hi, ih]
      · simp [Store.read, hk, hi, ih]

theorem Store.wf_below {cap : Nat} {st : Store} (n : Nat) (h : st.wf cap) : (st.below n).wf cap :=
  ⟨h.1.sublist List.filter_sublist, fun p hp => h.2 p (List.mem_of_mem_filter hp)⟩

/-- Which coefficients hold a value: those below `CPTR` (R30). -/
theorem State.heldCoef_read (s : State) (i : Nat) :
    s.heldCoef.read i = if i < s.cptr.toNat then s.coef.read i else none :=
  Store.read_below s.coef s.cptr.toNat i


/-- Two canonical stores that read the same everywhere are equal as data. -/
theorem Store.eq_of_read_eq {cap : Nat} {st st' : Store} (h : st.wf cap) (h' : st'.wf cap)
    (hread : ∀ i, st.read i = st'.read i) : st = st' := by
  induction st generalizing st' with
  | nil =>
    cases st' with
    | nil => rfl
    | cons p rest => have := hread p.1; simp [Store.read] at this
  | cons p rest ih =>
    obtain ⟨k, u⟩ := p
    cases st' with
    | nil => have := hread k; simp [Store.read] at this
    | cons q rest' =>
      obtain ⟨k', u'⟩ := q
      have hs := List.pairwise_cons.mp h.1
      have hs' := List.pairwise_cons.mp h'.1
      have hk : k = k' := by
        rcases Nat.lt_trichotomy k k' with hlt | heq | hgt
        · have h1 := hread k
          rw [Store.read_eq_none_of_lt (st := (k', u') :: rest')] at h1
          · simp [Store.read] at h1
          · intro p hp
            rcases List.mem_cons.mp hp with rfl | hp
            · exact hlt
            · exact lt_trans hlt (hs'.1 p hp)
        · exact heq
        · have h1 := hread k'
          rw [Store.read_eq_none_of_lt (st := (k, u) :: rest)] at h1
          · simp [Store.read] at h1
          · intro p hp
            rcases List.mem_cons.mp hp with rfl | hp
            · exact hgt
            · exact lt_trans hgt (hs.1 p hp)
      subst hk
      have hu : u = u' := by simpa [Store.read] using hread k
      subst hu
      congr 1
      refine ih ⟨hs.2, fun p hp => h.2 p (List.mem_cons_of_mem _ hp)⟩
        ⟨hs'.2, fun p hp => h'.2 p (List.mem_cons_of_mem _ hp)⟩ fun i => ?_
      by_cases hi : i = k
      · subst hi
        rw [Store.read_eq_none_of_lt hs.1, Store.read_eq_none_of_lt hs'.1]
      · simpa [Store.read, hi] using hread i

/-! ### Zero fill (R74) -/

/-- What the zero fill does, as reads see it. -/
theorem Store.read_zeroFill (st : Store) (n j : Nat) :
    (st.zeroFill n).read j = if j < n then some f32PlusZero else st.read j := by
  induction n with
  | zero => simp [Store.zeroFill]
  | succ n ih =>
    simp only [Store.zeroFill, Store.read_write, ih]
    by_cases h1 : j = n
    · simp [h1]
    · have : j < n + 1 ↔ j < n := by omega
      simp [h1, this]

theorem Store.wf_zeroFill {cap : Nat} {st : Store} {n : Nat} (h : st.wf cap) (hn : n ≤ cap) :
    (st.zeroFill n).wf cap := by
  induction n with
  | zero => exact h
  | succ n ih => exact Store.wf_write _ (ih (by omega)) (by omega)

/-! ### The shift (R80) -/

/-- The shift succeeds exactly when the elements it reads hold values. -/
theorem Store.shift_isSome (st : Store) (n : Nat) :
    (st.shift n).isSome ↔ ∀ i, i < n → (st.read i).isSome := by
  induction n generalizing st with
  | zero => simp [Store.shift]
  | succ n ih =>
    simp only [Store.shift]
    cases hr : st.read n with
    | none =>
      simp only [Option.isSome_none, Bool.false_eq_true, false_iff, not_forall]
      exact ⟨n, by omega, by simp [hr]⟩
    | some v =>
      rw [ih]
      constructor
      · intro h i hi
        rcases Nat.lt_succ_iff_lt_or_eq.mp hi with hlt | rfl
        · have := h i hlt
          rwa [Store.read_write_other _ _ (by omega)] at this
        · simp [hr]
      · intro h i hi
        rw [Store.read_write_other _ _ (by omega)]
        exact h i (by omega)

/-- What the shift does, as reads see it: element `j` of `1 .. n` gets the old element `j - 1`, every other
element is as before. -/
theorem Store.read_shift {st st' : Store} {n : Nat} (h : st.shift n = some st') (j : Nat) :
    st'.read j = if 1 ≤ j ∧ j ≤ n then st.read (j - 1) else st.read j := by
  induction n generalizing st with
  | zero =>
    simp only [Store.shift, Option.some.injEq] at h
    subst h
    rw [if_neg (by omega)]
  | succ n ih =>
    simp only [Store.shift] at h
    cases hr : st.read n with
    | none => simp [hr] at h
    | some v =>
      simp only [hr] at h
      rw [ih h]
      by_cases h1 : 1 ≤ j ∧ j ≤ n
      · rw [if_pos h1, if_pos (by omega), Store.read_write_other _ _ (by omega)]
      · rw [if_neg h1, Store.read_write]
        by_cases h2 : j = n + 1
        · subst h2
          simp [hr]
        · rw [if_neg h2, if_neg (by omega)]

theorem Store.wf_shift {cap : Nat} {st st' : Store} {n : Nat} (hwf : st.wf cap) (hn : n < cap)
    (h : st.shift n = some st') : st'.wf cap := by
  induction n generalizing st with
  | zero =>
    simp only [Store.shift, Option.some.injEq] at h
    exact h ▸ hwf
  | succ n ih =>
    simp only [Store.shift] at h
    cases hr : st.read n with
    | none => simp [hr] at h
    | some v =>
      simp only [hr] at h
      exact ih (Store.wf_write v hwf hn) (by omega) h

/-! ### Reading a range -/

/-- Reading a range succeeds exactly when every element of it holds a value. -/
theorem Store.readFrom_isSome (st : Store) (i n : Nat) :
    (st.readFrom i n).isSome ↔ ∀ j, j < n → (st.read (i + j)).isSome := by
  induction n generalizing i with
  | zero => simp [Store.readFrom]
  | succ n ih =>
    have ih' := ih (i + 1)
    simp only [Store.readFrom]
    cases hr : st.read i with
    | none =>
      simp only [Option.isSome_none, Bool.false_eq_true, false_iff, not_forall]
      exact ⟨0, by omega, by simp [hr]⟩
    | some w =>
      have hsplit : (∀ j, j < n + 1 → (st.read (i + j)).isSome) ↔
          ∀ j, j < n → (st.read (i + 1 + j)).isSome := by
        constructor
        · intro h j hj
          have := h (j + 1) (by omega)
          rwa [show i + (j + 1) = i + 1 + j by omega] at this
        · intro h j hj
          cases j with
          | zero => simp [hr]
          | succ j =>
            have := h j (by omega)
            rwa [show i + 1 + j = i + (j + 1) by omega] at this
      rw [hsplit, ← ih']
      cases Store.readFrom st (i + 1) n <;> simp

/-- A range that was read: how long it is and what it holds. -/
theorem Store.readFrom_eq_some_iff {st : Store} {i n : Nat} {ws : List Word} :
    st.readFrom i n = some ws ↔ ws.length = n ∧ ∀ j, j < n → st.read (i + j) = ws[j]? := by
  induction n generalizing i ws with
  | zero =>
    simp only [Store.readFrom, Option.some.injEq, List.length_eq_zero_iff]
    exact ⟨fun h => ⟨h.symm, fun j hj => absurd hj (by omega)⟩, fun h => h.1.symm⟩
  | succ n ih =>
    simp only [Store.readFrom]
    constructor
    · intro h
      cases hr : st.read i with
      | none => simp [hr] at h
      | some w =>
        cases hf : Store.readFrom st (i + 1) n with
        | none => simp [hr, hf] at h
        | some rest =>
          simp only [hr, hf, Option.some.injEq] at h
          subst h
          obtain ⟨hlen, hall⟩ := ih.mp hf
          refine ⟨by simp [hlen], fun j hj => ?_⟩
          cases j with
          | zero => simp [hr]
          | succ j =>
            have := hall j (by omega)
            rw [show i + (j + 1) = i + 1 + j by omega, this]
            simp
    · rintro ⟨hlen, hall⟩
      cases ws with
      | nil => simp at hlen
      | cons w rest =>
        have h0 := hall 0 (by omega)
        have hf : Store.readFrom st (i + 1) n = some rest := by
          refine ih.mpr ⟨by simpa using hlen, fun j hj => ?_⟩
          have := hall (j + 1) (by omega)
          rw [show i + (j + 1) = i + 1 + j by omega] at this
          simpa using this
        simp only [Nat.add_zero, List.getElem?_cons_zero] at h0
        simp [h0, hf]

end Sys2Proof.Machine
end

