-- ==== Sys2Proof/Laws/Ops.lean ====
section
/-! SUPPORT. What each shared operation can do, said once: answering and failing, the filter step, the dot
product, the decimator step, the unpacker, the quantizer's stop, CONV's loop. -/

namespace Sys2Proof.Machine

/-! ### Ending a command -/

theorem State.done_eq_next_iff (s t : State) (data : List Word) :
    s.done data = .next t ↔ s.answer .ok data = t := by
  simp [State.done]

theorem State.fail_eq_next_iff (s t : State) (e : Status) : s.fail e = .next t ↔ s.answer e [] = t := by
  simp [State.fail]

/-- A failure changes nothing but the host's side (R18, R122). -/
theorem State.answer_eq (s : State) (e : Status) (data : List Word) :
    s.answer e data = { s with pending := s.pending.tail, responses := s.responses ++ [⟨e, data⟩] } := rfl

/-- Answering with a filter output: one word, the output itself, or a NaN word that R16 does not fix. -/
theorem State.emitFloat_eq (s : State) (y : FloatResult) :
    ∃ w n, s.emitFloat y = .next ({ s with nanDraws := n }.answer .ok [w]) ∧
      (∀ v, y = .word v → w = v ∧ n = s.nanDraws) ∧ (y = .unfixedNaN → isNaN w = true) := by
  cases y with
  | word v => exact ⟨v, s.nanDraws, rfl, by simp, by simp⟩
  | unfixedNaN => exact ⟨Config.freeNaN s.nanDraws, s.nanDraws + 1, rfl, by simp, fun _ => isNaN_freeNaN _⟩

/-! ### The filter step (R80) -/

/-- The filter step succeeds exactly when the elements it reads hold values. -/
theorem firStep_isSome (taps : Nat) (coef delay : Store) (x : Word) :
    (firStep taps coef delay x).isSome ↔
      (∀ i, i + 1 < taps → (delay.read i).isSome) ∧ ∀ i, i < taps → (coef.read i).isSome := by
  unfold firStep
  cases hs : delay.shift (taps - 1) with
  | none =>
    simp only [Option.isSome_none, Bool.false_eq_true, false_iff, not_and]
    intro h
    have := (Store.shift_isSome delay (taps - 1)).mpr fun i hi => h i (by omega)
    simp [hs] at this
  | some shifted =>
    have hall := (Store.shift_isSome delay (taps - 1)).mp (by simp [hs])
    have hd : ((shifted.write 0 x).readFrom 0 taps).isSome := by
      rw [Store.readFrom_isSome]
      intro j hj
      rw [Store.read_write, Store.read_shift hs]
      by_cases h0 : j = 0
      · simp [h0]
      · rw [if_neg (by omega), if_pos (by omega)]
        exact hall _ (by omega)
    obtain ⟨ds, hds⟩ := Option.isSome_iff_exists.mp hd
    have hc := Store.readFrom_isSome coef 0 taps
    simp only [Nat.zero_add] at hc
    rw [← hc]
    simp only [hds]
    cases coef.readFrom 0 taps with
    | none => simp
    | some cs =>
      simp only [Option.isSome_some, and_true, true_iff]
      exact fun i hi => hall i (by omega)

/-- What the filter step does to the delay line, as reads see it (R80). -/
theorem firStep_read {taps : Nat} {coef delay d : Store} {x : Word} {y : FloatResult}
    (h : firStep taps coef delay x = some (d, y)) (j : Nat) :
    d.read j = if j = 0 then some x else if j < taps then delay.read (j - 1) else delay.read j := by
  unfold firStep at h
  cases hs : delay.shift (taps - 1) with
  | none => simp [hs] at h
  | some shifted =>
    simp only [hs] at h
    split at h
    · simp only [Option.some.injEq, Prod.mk.injEq] at h
      rw [← h.1, Store.read_write, Store.read_shift hs]
      by_cases h0 : j = 0
      · simp [h0]
      · by_cases h1 : j < taps
        · rw [if_neg h0, if_neg h0, if_pos h1, if_pos (by omega)]
        · rw [if_neg h0, if_neg h0, if_neg h1, if_neg (by omega)]
    · simp at h

/-- What the filter step answers: the dot product of the new delay line and the coefficients (R80). -/
theorem firStep_output {taps : Nat} {coef delay d : Store} {x : Word} {y : FloatResult}
    (h : firStep taps coef delay x = some (d, y)) :
    ∃ ds cs, d.readFrom 0 taps = some ds ∧ coef.readFrom 0 taps = some cs ∧ y = dot ds cs := by
  unfold firStep at h
  split at h
  · simp at h
  · split at h
    · next ds cs hds hcs =>
      simp only [Option.some.injEq, Prod.mk.injEq] at h
      exact ⟨ds, cs, h.1 ▸ hds, hcs, h.2.symm⟩
    · simp at h

/-- The filter step keeps the delay line canonical. -/
theorem firStep_wf {taps cap : Nat} {coef delay d : Store} {x : Word} {y : FloatResult} (hwf : delay.wf cap)
    (h1 : 1 ≤ taps) (h2 : taps ≤ cap) (h : firStep taps coef delay x = some (d, y)) : d.wf cap := by
  unfold firStep at h
  cases hs : delay.shift (taps - 1) with
  | none => simp [hs] at h
  | some shifted =>
    simp only [hs] at h
    split at h
    · simp only [Option.some.injEq, Prod.mk.injEq] at h
      exact h.1 ▸ Store.wf_write x (Store.wf_shift hwf (by omega) hs) (by omega)
    · simp at h

/-! ### The dot product (R80) -/

@[simp] theorem dot_nil : dot [] [] = .word f32PlusZero := rfl

/-- The taps are accumulated in rising index order: the last tap is added last (R80). -/
theorem dot_append {ds cs : List Word} (h : ds.length = cs.length) (d c : Word) :
    dot (ds ++ [d]) (cs ++ [c]) = mac (dot ds cs) d c := by
  simp [dot, List.zip_append h]

@[simp] theorem mac_unfixedNaN (d c : Word) : mac .unfixedNaN d c = .unfixedNaN := rfl

/-! ### The decimator step (R92) -/

/-- The decimator step on a validated factor, as numbers: the sample is kept when it completes a group of
`FACTOR`, and `PHASE` counts modulo `FACTOR` (R92, R94). -/
theorem decStep_spec {factor phase : Word} (h : phase.toNat < factor.toNat) :
    (decStep factor phase).1 = decide (phase.toNat + 1 = factor.toNat) ∧
      (decStep factor phase).2.toNat = (phase.toNat + 1) % factor.toNat := by
  have hlt := factor.isLt
  have hsub : (factor - 1).toNat = factor.toNat - 1 := by
    rw [BitVec.toNat_sub_of_le]
    · rfl
    · rw [BitVec.le_def]
      show 1 ≤ factor.toNat
      omega
  have hiff : phase = factor - 1 ↔ phase.toNat + 1 = factor.toNat := by
    rw [← BitVec.toNat_inj, hsub]
    omega
  unfold decStep
  by_cases hk : phase = factor - 1
  · have := hiff.mp hk
    rw [if_pos hk]
    simp [this]
  · have hne : phase.toNat + 1 ≠ factor.toNat := fun h' => hk (hiff.mpr h')
    rw [if_neg hk]
    refine ⟨by simp [hne], ?_⟩
    have hadd : (phase + 1).toNat = phase.toNat + 1 := by
      rw [BitVec.toNat_add]
      exact Nat.mod_eq_of_lt (by show phase.toNat + 1 < 2 ^ 32; omega)
    rw [hadd, Nat.mod_eq_of_lt (show phase.toNat + 1 < factor.toNat by omega)]

/-- The two answers of the decimator step. -/
theorem decStep_cases (factor phase : Word) :
    phase = factor - 1 ∧ decStep factor phase = (true, 0) ∨
      phase ≠ factor - 1 ∧ decStep factor phase = (false, phase + 1) := by
  unfold decStep
  split
  · next h => exact .inl ⟨h, rfl⟩
  · next h => exact .inr ⟨h, rfl⟩

/-! ### The unpacker (R88, R89) -/

@[simp] theorem unpackByte_length (b : Byte) : (unpackByte b).length = 8 := rfl

theorem unpackByte_getElem? (b : Byte) (k : Nat) :
    (unpackByte b)[k]? = if k < 8 then some (unpackBit b k) else none := by
  by_cases h : k < 8
  · simp [unpackByte, h]
  · simp [unpackByte, h]

theorem unpackBit_eq_or (b : Byte) (k : Nat) : unpackBit b k = f32PlusOne ∨ unpackBit b k = f32MinusOne := by
  unfold unpackBit
  split
  · exact .inl rfl
  · exact .inr rfl

/-! ### The quantizer (R97) -/

theorem f32Scale_isNaN : isNaN f32Scale = false := by decide

theorem f32Scale_isInf : isInf f32Scale = false := by decide

theorem f32Scale_isZero : isZero f32Scale = false := by decide

/-- The product with the scale is a NaN exactly for a NaN (R97). -/
theorem fmul_scale_eq_nan_iff (x : Word) : fmul x f32Scale = .unfixedNaN ↔ isNaN x = true := by
  rw [fmul_eq_nan_iff, f32Scale_isNaN, f32Scale_isInf, f32Scale_isZero]
  simp

/-- What the quantizer answers: nothing for a NaN, else the clipped and truncated product (R97). -/
theorem quantize_cases (x : Word) :
    isNaN x = true ∧ quantize x = none ∨
      isNaN x = false ∧ ∃ v, fmul x f32Scale = .word v ∧ quantize x = some (clipToI16 v) := by
  have h := fmul_scale_eq_nan_iff x
  unfold quantize
  cases hm : fmul x f32Scale with
  | unfixedNaN => exact .inl ⟨h.mp hm, rfl⟩
  | word v =>
    refine .inr ⟨?_, v, rfl, rfl⟩
    rw [hm] at h
    simpa using h

/-- The quantizer raises exactly on a NaN (R97). -/
theorem quantize_eq_none_iff (x : Word) : quantize x = none ↔ isNaN x = true := by
  rcases quantize_cases x with ⟨h1, h2⟩ | ⟨h1, v, -, h2⟩ <;> simp [h1, h2]

/-! ### CONV's loop (R102) -/

/-- What one pass of CONV's loop does when it goes on: the filter step, the decimator step, and the word of a
kept sample. -/
theorem convSample_eq_ok {taps : Nat} {coef : Store} {factor x : Word} {w w' : ConvWork}
    (h : convSample taps coef factor x w = .ok w') :
    ∃ y, firStep taps coef w.delay x = some (w'.delay, y) ∧ w'.phase = (decStep factor w.phase).2 ∧
      ((decStep factor w.phase).1 = false ∧ w'.out = w.out ∨
        (decStep factor w.phase).1 = true ∧ ∃ q, quantizeResult y = some q ∧ w'.out = w.out ++ [sext32 q]) := by
  unfold convSample at h
  split at h
  · simp at h
  · next d y hf =>
    split at h
    · next p hp =>
      simp only [Except.ok.injEq] at h
      subst h
      exact ⟨y, hf, by simp [hp], .inl ⟨by simp [hp], rfl⟩⟩
    · next p hp =>
      split at h
      · simp at h
      · next q hq =>
        simp only [Except.ok.injEq] at h
        subst h
        exact ⟨y, hf, by simp [hp], .inr ⟨by simp [hp], q, hq, rfl⟩⟩

/-- How one pass of CONV's loop ends the command: an element without a value, or a NaN in a kept sample. -/
theorem convSample_eq_error {taps : Nat} {coef : Store} {factor x : Word} {w : ConvWork} {e : Stop}
    (h : convSample taps coef factor x w = .error e) :
    e = .fault .noValue ∧ firStep taps coef w.delay x = none ∨
      e = .raise .eNan ∧ ∃ d y, firStep taps coef w.delay x = some (d, y) ∧ (decStep factor w.phase).1 = true ∧
        quantizeResult y = none := by
  unfold convSample at h
  split at h
  · next hf => simp only [Except.error.injEq] at h; exact .inl ⟨h.symm, hf⟩
  · next d y hf =>
    split at h
    · simp at h
    · next p hp =>
      split at h
      · next hq =>
        simp only [Except.error.injEq] at h
        exact .inr ⟨h.symm, d, y, hf, by simp [hp], hq⟩
      · simp at h

@[simp] theorem convSamples_nil (taps : Nat) (coef : Store) (factor : Word) (w : ConvWork) :
    convSamples taps coef factor [] w = .ok w := rfl

/-- CONV's loop goes on through its first sample and then through the rest. -/
theorem convSamples_cons_eq_ok_iff {taps : Nat} {coef : Store} {factor x : Word} {xs : List Word}
    {w w' : ConvWork} : convSamples taps coef factor (x :: xs) w = .ok w' ↔
      ∃ w1, convSample taps coef factor x w = .ok w1 ∧ convSamples taps coef factor xs w1 = .ok w' := by
  simp only [convSamples]
  cases convSample taps coef factor x w <;> simp

/-- An invariant of CONV's working copy that one pass keeps is kept by the loop. -/
theorem convSamples_induct {taps : Nat} {coef : Store} {factor : Word} {P : ConvWork → Prop}
    (hstep : ∀ x w w', P w → convSample taps coef factor x w = .ok w' → P w') {xs : List Word}
    {w w' : ConvWork} (hw : P w) (h : convSamples taps coef factor xs w = .ok w') : P w' := by
  induction xs generalizing w with
  | nil =>
    simp only [convSamples_nil, Except.ok.injEq] at h
    exact h ▸ hw
  | cons x xs ih =>
    obtain ⟨w1, h1, h2⟩ := convSamples_cons_eq_ok_iff.mp h
    exact ih (hstep x w w1 hw h1) h2

/-- How CONV's loop ends the command early: an element without a value, or a NaN in a kept sample. -/
theorem convSamples_eq_error {taps : Nat} {coef : Store} {factor : Word} {xs : List Word} {w : ConvWork} {e : Stop}
    (h : convSamples taps coef factor xs w = .error e) : e = .fault .noValue ∨ e = .raise .eNan := by
  induction xs generalizing w with
  | nil => simp at h
  | cons x xs ih =>
    simp only [convSamples] at h
    split at h
    · next e' he =>
      simp only [Except.error.injEq] at h
      subst h
      exact (convSample_eq_error he).imp And.left And.left
    · exact ih h

/-- CONV's loop does not run into an element without a value when the elements it starts from hold values: each step
needs all but the oldest element of the delay line, and leaves them (R80, R102). -/
theorem convSamples_ne_noValue {taps : Nat} {coef : Store} {factor : Word} {xs : List Word} {w : ConvWork}
    (hdelay : ∀ i, i + 1 < taps → (w.delay.read i).isSome) (hcoef : ∀ i, i < taps → (coef.read i).isSome) :
    convSamples taps coef factor xs w ≠ .error (.fault .noValue) := by
  induction xs generalizing w with
  | nil => simp
  | cons x xs ih =>
    have hstep := (firStep_isSome taps coef w.delay x).mpr ⟨hdelay, hcoef⟩
    simp only [convSamples]
    split
    · next e he =>
      rcases convSample_eq_error he with ⟨-, hnone⟩ | ⟨rfl, -⟩
      · simp [hnone] at hstep
      · simp
    · next w' hw' =>
      obtain ⟨y, hfir, -⟩ := convSample_eq_ok hw'
      refine ih fun i hi => ?_
      rw [firStep_read hfir]
      split
      · rfl
      · rw [if_pos (by omega)]
        exact hdelay _ (by omega)

/-- CONV's loop emits at most one word a sample. -/
theorem convSamples_out_length {taps : Nat} {coef : Store} {factor : Word} {xs : List Word} {w w' : ConvWork}
    (h : convSamples taps coef factor xs w = .ok w') : w'.out.length ≤ w.out.length + xs.length := by
  induction xs generalizing w with
  | nil =>
    simp only [convSamples_nil, Except.ok.injEq] at h
    simp [h]
  | cons x xs ih =>
    obtain ⟨w1, h1, h2⟩ := convSamples_cons_eq_ok_iff.mp h
    have hlen := ih h2
    obtain ⟨y, -, -, ⟨-, ho⟩ | ⟨-, q, -, ho⟩⟩ := convSample_eq_ok h1 <;>
      simp only [ho, List.length_append, List.length_cons, List.length_nil] at hlen ⊢ <;> omega

end Sys2Proof.Machine
end

