-- ==== Sys2Proof/Laws/PerInstr.lean ====
section
/-! SUPPORT. Statements made for every command, one lemma per constructor of Instr. Family `SelectsItsRow`: the
command is well formed, and its encoded word selects its own row of the opcode map (R51, R57, R62). -/

namespace Sys2Proof

/-- Masking a command word masks its two fields. -/
theorem commandWord_and (op m1 : Byte) (a m2 : Word) :
    commandWord op a &&& (m1 ++ m2 : CommandWord) = commandWord (op &&& m1) (a &&& m2) := by
  simp only [commandWord]
  exact BitVec.and_append

theorem commandWord_and_opcode (op : Byte) (a : Word) :
    commandWord op a &&& 0xFF00000000#40 = commandWord op 0 := by
  rw [show (0xFF00000000#40 : CommandWord) = (0xFF#8 ++ 0#32 : CommandWord) from rfl, commandWord_and]
  congr 1
  · exact BitVec.and_allOnes
  · exact BitVec.and_zero

theorem commandWord_and_byte (op b : Byte) :
    commandWord op (b.setWidth 32) &&& 0xFFFFFFFF00#40 = commandWord op 0 := by
  rw [show (0xFFFFFFFF00#40 : CommandWord) = (0xFF#8 ++ 0xFFFFFF00#32 : CommandWord) from rfl, commandWord_and]
  congr 1
  · exact BitVec.and_allOnes
  · apply BitVec.eq_of_toNat_eq
    have hb := b.isLt
    rw [BitVec.toNat_and, BitVec.toNat_setWidth, Nat.mod_eq_of_lt (by omega)]
    apply Nat.eq_of_testBit_eq
    intro i
    rw [Nat.testBit_and, show (0 : Word).toNat = 0 from rfl, Nat.zero_testBit]
    by_cases hi : i < 8
    · rw [show (0xFFFFFF00#32).toNat.testBit i = false by interval_cases i <;> decide, Bool.and_false]
    · rw [Nat.testBit_lt_two_pow (Nat.lt_of_lt_of_le hb (Nat.pow_le_pow_right (by norm_num) (by omega))),
        Bool.false_and]

theorem admits_byte (b : Byte) : OperandKind.u8.admits (b.setWidth 32) = true := by
  have hb := b.isLt
  simp only [OperandKind.admits, beq_iff_eq]
  apply BitVec.eq_of_toNat_eq
  rw [BitVec.extractLsb'_toNat, BitVec.toNat_setWidth, Nat.shiftRight_eq_div_pow,
    Nat.mod_eq_of_lt (show b.toNat < 2 ^ 32 by omega), Nat.div_eq_of_lt hb]
  rfl

end Sys2Proof

/-- The command is well formed, and its word selects its own row of the opcode map. -/
def Sys2Proof.Laws.SelectsItsRow.Statement (i : Sys2Proof.Instr) : Prop :=
  i.wf = true ∧ i.row.selects (Sys2Proof.encode i) = true

namespace Sys2Proof.Laws.SelectsItsRow

theorem clr : Statement .clr := ⟨by decide, by decide⟩

theorem setlen (n : Word) : Statement (.setlen n) := ⟨rfl, beq_iff_eq.mpr (commandWord_and_opcode 0x02 n)⟩

theorem setfac (n : Word) : Statement (.setfac n) := ⟨rfl, beq_iff_eq.mpr (commandWord_and_opcode 0x03 n)⟩

theorem ldc (v : Word) : Statement (.ldc v) := ⟨rfl, beq_iff_eq.mpr (commandWord_and_opcode 0x04 v)⟩

theorem init : Statement .init := ⟨by decide, by decide⟩

theorem apply (x : Word) : Statement (.apply x) := ⟨rfl, beq_iff_eq.mpr (commandWord_and_opcode 0x10 x)⟩

theorem unpk (b : Byte) : Statement (.unpk b) := ⟨admits_byte b, beq_iff_eq.mpr (commandWord_and_byte 0x20 b)⟩

theorem dsync : Statement .dsync := ⟨by decide, by decide⟩

theorem dec (x : Word) : Statement (.dec x) := ⟨rfl, beq_iff_eq.mpr (commandWord_and_opcode 0x31 x)⟩

theorem qnt (x : Word) : Statement (.qnt x) := ⟨rfl, beq_iff_eq.mpr (commandWord_and_opcode 0x32 x)⟩

theorem conv (b : Byte) : Statement (.conv b) := ⟨admits_byte b, beq_iff_eq.mpr (commandWord_and_byte 0x40 b)⟩

theorem rds (r : Word) : Statement (.rds r) := ⟨rfl, beq_iff_eq.mpr (commandWord_and_opcode 0x50 r)⟩

theorem rdc (i : Word) : Statement (.rdc i) := ⟨rfl, beq_iff_eq.mpr (commandWord_and_opcode 0x51 i)⟩

theorem rdd (i : Word) : Statement (.rdd i) := ⟨rfl, beq_iff_eq.mpr (commandWord_and_opcode 0x52 i)⟩

end Sys2Proof.Laws.SelectsItsRow
end

