-- ==== Sys2Proof/Machine/Assembler.lean ====
section
/-! DEFINITION. The assembler level (spec/30_encoding.md R62 to R69): operand literals, lines and listing lines,
and the pseudo-commands as the lists of commands they expand to. The block itself knows none of it. -/

namespace Sys2Proof.Machine

/-! ### Operand literals (R63) -/

/-- An `s32` literal: a decimal integer in `-2147483648 .. 2147483647`, as its two's-complement word (R63). -/
def literalS32 (n : Int) : Option Word :=
  if -2147483648 ≤ n ∧ n ≤ 2147483647 then some (BitVec.ofInt 32 n) else none

/-- A `u8` literal, `0 .. 255` (R63). -/
def literalU8 (n : Nat) : Option Byte := if n < 256 then some (BitVec.ofNat 8 n) else none

/-- An `idx` literal, or an `f32` literal written as a hexadecimal word: below 2^32 (R63). -/
def literalWord (n : Nat) : Option Word := if n < 2 ^ 32 then some (BitVec.ofNat 32 n) else none

/-- A decimal `f32` literal: the binary32 value nearest to plus or minus `num / den`, ties to even (R63), for
`den > 0`. The quotient is taken in units of 2^-301 with a last bit that says whether anything was cut off. -/
def literalF32 (negative : Bool) (num den : Nat) : Word :=
  let scaled := num * 2 ^ 300 / den
  let sticky := if num * 2 ^ 300 % den = 0 then 0 else 1
  f32Pack negative (f32Round (2 * scaled + sticky) 152)

/-! ### Lines (R62, R63, R69) -/

/-- The last `width` hexadecimal digits of `n`, the most significant first. -/
def hexDigits : Nat → Nat → List Char
  | 0, _ => []
  | width + 1, n => hexDigits width (n / 16) ++ ["0123456789ABCDEF".toList.getD (n % 16) '0']

/-- A hexadecimal number of `width` digits. -/
def hexNumber (width n : Nat) : String := "0x" ++ String.ofList (hexDigits width n)

/-- One assembler line (R62): the mnemonic, then the operand literal if the kind is not `none` (R63). -/
def assemblerLine (i : Instr) : String :=
  match i.row.kind with
  | .none => i.row.mnemonic
  | .s32 => i.row.mnemonic ++ " " ++ toString (s32 i.operandWord)
  | .f32 => i.row.mnemonic ++ " " ++ hexNumber 8 i.operandWord.toNat
  | .u8 => i.row.mnemonic ++ " " ++ hexNumber 2 i.operandWord.toNat
  | .idx => i.row.mnemonic ++ " " ++ toString (idx i.operandWord)

/-- The name of a status (R112). -/
def Status.text : Status → String
  | .ok => "OK"
  | .eIllegal => "E_ILLEGAL"
  | .eState => "E_STATE"
  | .eConfig => "E_CONFIG"
  | .eResource => "E_RESOURCE"
  | .eArg => "E_ARG"
  | .eRange => "E_RANGE"
  | .eNan => "E_NAN"

/-- A listing line: the command, its 40-bit word in ten digits, the status and the data words in order (R69). -/
def listingLine (i : Instr) (r : Response) : String :=
  assemblerLine i ++ " ; word " ++ hexNumber 10 (encode i).toNat ++ " -> " ++ r.status.text ++ " ["
    ++ String.intercalate ", " (r.data.map fun w => hexNumber 8 w.toNat) ++ "]"

/-! ### Pseudo-commands (R64 to R68) -/

/-- `FILTER len, factor, c0, ..., c(k-1)` (R64). -/
def pseudoFilter (len factor : Word) (coefs : List Word) : List Instr :=
  [.setlen len, .setfac factor] ++ coefs.map .ldc ++ [.init]

/-- `APPLYB x0, ..., x(n-1)` (R65). -/
def pseudoApplyb (xs : List Word) : List Instr := xs.map .apply

/-- `UNPKB b0, ..., b(n-1)` (R66). -/
def pseudoUnpkb (bs : List Byte) : List Instr := bs.map .unpk

/-- `DECB x0, ..., x(n-1)` (R67). -/
def pseudoDecb (xs : List Word) : List Instr := .dsync :: xs.map .dec

/-- `FRAME b0, ..., b(n-1)` (R68). -/
def pseudoFrame (bs : List Byte) : List Instr := .dsync :: bs.map .conv

/-- `CONVB b0, ..., b(n-1)`: FRAME without the leading DSYNC (R68). -/
def pseudoConvb (bs : List Byte) : List Instr := bs.map .conv

/-- What a host does that presents the commands in order (R45, R62). -/
def presented (is : List Instr) : List HostEvent := is.map fun i => .command (encode i)

end Sys2Proof.Machine
end

