-- ==== Sys2Proof/Tests/Slice0.lean ====
section
/-! SUPPORT. Tests: small facts whose expected results are written out from the spec (the rule, or the vector of
spec/95_test_vectors.md, stands in the comment), and one witness for the hypotheses of each statement. -/

namespace Sys2Proof.Tests

open Sys2Proof.Machine

-- One theorem after the other: the checks are short, and side by side each takes a thread of its own.
set_option Elab.async false

/-! ### Helpers -/

/-- An instance with the given `MAXTAPS`, right after reset. -/
def fresh (maxTaps : Nat) : State := { State.reset with maxTaps := maxTaps }

/-- A store whose elements from 0 on are the words of the list. -/
def storeOf (ws : List Word) : Store := (List.range ws.length).zip ws

/-- A staged configuration in state Uninitialized. -/
def staged (maxTaps : Nat) (len factor : Word) (coef : List Word) : State :=
  { fresh maxTaps with len := len, factor := factor, cptr := BitVec.ofNat 32 coef.length, coef := storeOf coef }

/-- A Ready filter with the given coefficients, delay line, factor and phase. -/
def filter (maxTaps : Nat) (factor phase : Word) (coef delay : List Word) : State :=
  { staged maxTaps (BitVec.ofNat 32 coef.length) factor coef with
    state := .ready, phase := phase, delay := storeOf delay }

/-- The response to a command, when it is answered. -/
def answerOf (r : Result) : Option Response :=
  match r with
  | .next t => t.lastResponse
  | _ => none

/-- A look at the state after a command, when it is answered. -/
def after {α : Type} (f : State → α) (r : Result) : Option α :=
  match r with
  | .next t => some (f t)
  | _ => none

/-! ### Checks refuse ill-formed terms (R51, R54, R56, R58) -/

theorem test_check_refuses_operand_of_clr : OperandKind.none.admits 1 = false := by decide

theorem test_check_refuses_wide_byte : OperandKind.u8.admits 0x100 = false := by decide

theorem test_check_refuses_high_bit_of_byte : OperandKind.u8.admits 0x80000000 = false := by decide

theorem test_check_refuses_unknown_opcode : legalWord 0x0600000000 = false := by decide

theorem test_check_refuses_zero_word : legalWord 0 = false := by decide

theorem test_check_refuses_init_with_operand : legalWord 0x0500000001 = false := by decide

theorem test_check_refuses_conv_with_bit_31 : legalWord 0x40800000FF = false := by decide

/-! ### Decoding: words written out from R50 and R57, and from the table of 95_test_vectors.md section 2.8 -/

theorem test_decode_clr : decode 0x0100000000 = .ok .clr := by decide

theorem test_decode_setlen : decode 0x02FFFFFFFF = .ok (.setlen (-1)) := by decide

theorem test_decode_setfac : decode 0x0300000040 = .ok (.setfac 64) := by decide

theorem test_decode_ldc : decode 0x043C800000 = .ok (.ldc 0x3C800000) := by decide

theorem test_decode_init : decode 0x0500000000 = .ok .init := by decide

theorem test_decode_apply : decode 0x103F800000 = .ok (.apply 0x3F800000) := by decide

theorem test_decode_unpk : decode 0x20000000A5 = .ok (.unpk 0xA5) := by decide

theorem test_decode_dsync : decode 0x3000000000 = .ok .dsync := by decide

theorem test_decode_dec : decode 0x3140400000 = .ok (.dec 0x40400000) := by decide

theorem test_decode_qnt : decode 0x323F000000 = .ok (.qnt 0x3F000000) := by decide

theorem test_decode_conv : decode 0x40000000FF = .ok (.conv 0xFF) := by decide

theorem test_decode_rds : decode 0x5000000005 = .ok (.rds 5) := by decide

theorem test_decode_rdc : decode 0x5180000000 = .ok (.rdc 0x80000000) := by decide

theorem test_decode_rdd : decode 0x5200000001 = .ok (.rdd 1) := by decide

theorem test_decode_refuses_unknown_opcode : decode 0x5300000000 = .error (.unknownOpcode 0x53) := by decide

theorem test_decode_refuses_reserved_bits :
    decode 0x20000001A5 = .error (.reservedOperandBits 0x20 0x1A5) := by decide

/-- R62: `SETLEN 3` is `0x0200000003`, `CONV 0xA5` is `0x40000000A5`. -/
theorem test_encode_examples :
    encode (.setlen 3) = 0x0200000003 ∧ encode .init = 0x0500000000 ∧ encode (.conv 0xA5) = 0x40000000A5 := by
  decide

theorem test_decodeTableWord_rdd : decodeTableWord 40 0x5200000001 = some (.rdd 1) := by decide

/-! ### Fetching: the presented word runs as the first command after reset (R130) -/

theorem test_fetch_ldc :
    after State.cptr (step (State.reset.withFetchWord 40 0x043E800000)) = some 1 := by decide

theorem test_fetch_init_is_refused_after_reset :
    answerOf (step (State.reset.withFetchWord 40 0x0500000000)) = some ⟨.eConfig, []⟩ := by decide

theorem test_fetch_apply_is_refused_after_reset :
    answerOf (step (State.reset.withFetchWord 40 0x103F800000)) = some ⟨.eState, []⟩ := by decide

theorem test_illegal_word_is_answered :
    answerOf (step (State.reset.withFetchWord 40 0xFFFFFFFFFF)) = some ⟨.eIllegal, []⟩ := by decide

/-- R121: decoding comes before the state check. -/
theorem test_illegal_before_state :
    answerOf (step (State.reset.withFetchWord 40 0x4000000100)) = some ⟨.eIllegal, []⟩ := by decide

/-! ### Arithmetic (R12 to R15) -/

/-- Section 2.3, V-A4. -/
theorem test_fmul_inexact : fmul 0x3F333333 0x3DCCCCCD = .word 0x3D8F5C29 := by decide +kernel

/-- Section 2.3, V-A4. -/
theorem test_fadd_inexact : fadd 0x3D8F5C29 0x3D75C290 = .word 0x3E051EB8 := by decide +kernel

/-- Section 2.3, V-A2: `2^24 + 1` is a tie, rounded to even. -/
theorem test_fadd_tie_to_even : fadd 0x4B800000 0x3F800000 = .word 0x4B800000 := by decide +kernel

/-- Section 2.3, V-A6: overflow. -/
theorem test_fmul_overflow : fmul 0xC0000000 0x7F7FFFFF = .word 0xFF800000 := by decide +kernel

/-- Section 2.1: the least subnormal times 32767 is kept as a subnormal. -/
theorem test_fmul_subnormal : fmul 0x00000001 f32Scale = .word 0x00007FFF := by decide +kernel

/-- R13: `fadd(+0.0, -0.0) = +0.0` and `fadd(-0.0, -0.0) = -0.0`. -/
theorem test_fadd_zeros :
    fadd f32PlusZero f32MinusZero = .word f32PlusZero ∧ fadd f32MinusZero f32MinusZero = .word f32MinusZero := by
  decide +kernel

/-- R12: zero times infinity is a NaN. -/
theorem test_fmul_zero_infinity : fmul 0x00000000 0xFF800000 = .unfixedNaN := by decide +kernel

/-- R15: `ftrunc_i16` of -16383.5 is -16383, of -0.0 is 0. -/
theorem test_ftrunc_toward_zero : ftruncI16 0xC67FFE00 = -16383 ∧ ftruncI16 0x80000000 = 0 := by decide +kernel

/-! ### Configuration (R70 to R77; section 2.6) -/

/-- R70: from Ready, everything is 0 and no element holds a value. -/
theorem test_clr :
    after (fun t => (t.state, t.len, t.cptr, t.coef.read 0, t.delay.read 0))
      (exec .clr (filter 4 3 2 [0x3F800000] [0x3F800000])) = some (.uninitialized, 0, 0, none, none) := by
  decide

/-- Section 2.6: SETLEN with the value already staged still clears `CPTR`. No coefficient holds a value then (R30),
although the bits are kept (R71). -/
theorem test_setlen_clears_cptr :
    after (fun t => (t.len, t.cptr, t.coef.read 0, t.heldCoef.read 0))
      (exec (.setlen 2) (staged 4 2 1 [0x3F800000, 0x3F800000])) = some (2, 0, some 0x3F800000, none) := by
  decide

theorem test_setlen_in_ready : answerOf (exec (.setlen 3) (filter 4 1 0 [0x3F800000] [0])) = some ⟨.eState, []⟩ := by
  decide

/-- Section 2.6: `SETFAC -5`. -/
theorem test_setfac_keeps_cptr :
    after (fun t => (t.factor, t.cptr)) (exec (.setfac (-5)) (staged 4 2 1 [0x3F800000])) =
      some (0xFFFFFFFB, 1) := by
  decide

/-- Section 2.6: a NaN is stored as it is. -/
theorem test_ldc_stores_bits :
    after (fun t => (t.coef.read 1, t.cptr)) (exec (.ldc 0x7FC00000) (staged 4 2 1 [0x3F800000])) =
      some (some 0x7FC00000, 2) := by
  decide

/-- Program P3: the fifth coefficient with `MAXTAPS` 4. -/
theorem test_ldc_full :
    after id (exec (.ldc 5) (staged 4 5 1 [1, 2, 3, 4])) = some ((staged 4 5 1 [1, 2, 3, 4]).answer .eResource []) := by
  decide

/-- Program P1: INIT makes the block Ready with a delay line of zeros. -/
theorem test_init :
    after (fun t => (t.state, t.delay)) (exec .init (staged 8 3 1 [0x3E800000, 0x3F000000, 0x3E800000])) =
      some (.ready, [(0, 0), (1, 0), (2, 0)]) := by
  decide

/-- R121: `LEN = MAXTAPS + 1`, `FACTOR = 1` answers `E_RESOURCE` although `CPTR != LEN`. -/
theorem test_init_resource_before_argument : answerOf (exec .init (staged 4 5 1 [])) = some ⟨.eResource, []⟩ := by
  decide

/-! ### Filter (R80, R81; section 2.3) -/

/-- Section 2.3, V-A2, the third APPLY: rising index order and rounded partial sums give `+0.0`, not `1.0`. -/
theorem test_apply_order_and_rounding :
    answerOf (exec (.apply 0x3F800000)
      (filter 4 1 0 [0x4B800000, 0x3F800000, 0xCB800000] [0x3F800000, 0x3F800000, 0])) = some ⟨.ok, [0]⟩ := by
  decide +kernel

/-- Program P1: after the second APPLY the 1.0 stands at index 1. -/
theorem test_apply_shifts :
    after (fun t => (t.delay, t.phase)) (exec (.apply 0) (filter 8 1 0 [0x3E800000, 0x3F000000, 0x3E800000]
      [0x3F800000, 0, 0])) = some ([(0, 0), (1, 0x3F800000), (2, 0)], 0) := by
  decide +kernel

/-! ### Unpacker (R89; section 2.2) -/

theorem test_unpk_13 :
    answerOf (exec (.unpk 0x13) (fresh 1)) = some ⟨.ok, [0x3F800000, 0x3F800000, 0xBF800000, 0xBF800000, 0x3F800000,
      0xBF800000, 0xBF800000, 0xBF800000]⟩ := by
  decide

/-! ### Decimator and quantizer (R92 to R99; sections 2.1 and 2.4, program P4) -/

theorem test_dsync :
    after (fun t => (t.phase, t.delay.read 0)) (exec .dsync (filter 4 3 2 [0x3F800000] [0x40000000])) =
      some (0, some 0x40000000) := by
  decide

/-- Program P4: the third of three is kept, its bits unchanged. -/
theorem test_dec_keeps_the_last :
    answerOf (exec (.dec 0x7FC00000) (filter 4 3 2 [0x3F800000] [0])) = some ⟨.ok, [0x7FC00000]⟩ := by decide

theorem test_dec_drops :
    after (fun t => (t.phase, t.lastResponse)) (exec (.dec 0x3F800000) (filter 4 3 0 [0x3F800000] [0])) =
      some (1, some ⟨.ok, []⟩) := by
  decide

/-- Section 2.1: -0.5 gives -16383, neither -16384. -/
theorem test_qnt_truncates : answerOf (exec (.qnt 0xBF000000) (fresh 1)) = some ⟨.ok, [0xFFFFC001]⟩ := by
  decide +kernel

theorem test_qnt_nan : answerOf (exec (.qnt 0x7F800001) (fresh 1)) = some ⟨.eNan, []⟩ := by decide +kernel

/-! ### Pipeline (R102 to R104; section 2.5) -/

/-- V-C2, the last line: `FACTOR` 3 from `PHASE` 0, taps 0.5, 0.5, after a byte of zeros. -/
theorem test_conv :
    after (fun t => (t.lastResponse, t.phase)) (exec (.conv 0xF0)
      (filter 4 3 0 [0x3F000000, 0x3F000000] [0xBF800000, 0xBF800000])) =
      some (some ⟨.ok, [0xFFFF8001, 0x00007FFF]⟩, 2) := by
  decide +kernel

/-- V-C7: a NaN in a kept sample answers `E_NAN` and commits nothing. -/
theorem test_conv_nan :
    after id (exec (.conv 0x05) (filter 4 1 0 [0x7F800000, 0xFF800000] [0xBF800000, 0])) =
      some ((filter 4 1 0 [0x7F800000, 0xFF800000] [0xBF800000, 0]).answer .eNan []) := by
  decide +kernel

/-! ### Read-back (R107 to R110; section 2.7) -/

theorem test_rds_maxtaps : answerOf (exec (.rds 5) (fresh 4)) = some ⟨.ok, [4]⟩ := by decide

theorem test_rds_range : answerOf (exec (.rds 0xFFFFFFFF) (fresh 4)) = some ⟨.eRange, []⟩ := by decide

theorem test_rdc : answerOf (exec (.rdc 1) (staged 4 2 3 [0x3F800000, 0xBF800000])) = some ⟨.ok, [0xBF800000]⟩ := by
  decide

/-- Section 2.7: the index is unsigned. -/
theorem test_rdc_range :
    answerOf (exec (.rdc 0x80000000) (staged 4 2 3 [0x3F800000, 0xBF800000])) = some ⟨.eRange, []⟩ := by
  decide

theorem test_rdd : answerOf (exec (.rdd 3) (filter 4 4 0 [1, 1, 1, 1] [2, 3, 4, 0x3F800000])) =
    some ⟨.ok, [0x3F800000]⟩ := by
  decide

/-- R121: state before range. -/
theorem test_rdd_uninitialized : answerOf (exec (.rdd 99) (fresh 4)) = some ⟨.eState, []⟩ := by decide

/-! ### Host side (R52, R128; section 2.8) -/

theorem test_headers :
    (⟨.ok, unpackByte 0⟩ : Response).header = 0x08 ∧ (⟨.eNan, []⟩ : Response).header = 0x70 := by decide

theorem test_hard_reset :
    after (fun t => (t.state, t.delay, t.pending, t.maxTaps))
      (step { filter 4 3 2 [1] [1] with pending := [.hardReset, .command 0] }) =
      some (.uninitialized, [], [.command 0], 4) := by
  decide

/-! ### Assembler (R62 to R69) -/

/-- R63: 0.1 is nearest to `0x3DCCCCCD`; `2^24 + 1` is a tie and goes to even. -/
theorem test_literal_f32 :
    literalF32 false 1 10 = 0x3DCCCCCD ∧ literalF32 true 1 4 = 0xBE800000 ∧
      literalF32 false 16777217 1 = 0x4B800000 := by
  decide +kernel

theorem test_literal_ranges :
    literalS32 (-1) = some 0xFFFFFFFF ∧ literalS32 2147483648 = none ∧ literalU8 256 = none ∧
      literalWord 4294967296 = none := by
  decide

/-- R64: `FILTER 2, 1, 1.0, -1.0`. -/
theorem test_pseudo_filter :
    presented (pseudoFilter 2 1 [0x3F800000, 0xBF800000]) =
      [.command 0x0200000002, .command 0x0300000001, .command 0x043F800000, .command 0x04BF800000,
        .command 0x0500000000] := by
  decide

/-- R69, section 2.1. -/
theorem test_listing_line :
    listingLine (.qnt 0xBF800000) ⟨.ok, [0xFFFF8001]⟩ = "QNT 0xBF800000 ; word 0x32BF800000 -> OK [0xFFFF8001]" := by
  decide +kernel

/-! ### Witnesses: for each statement with hypotheses, values that meet all of them together, and for its clauses
values at the ends of their ranges -/

/-- Two taps of 0.5, `FACTOR` 3, `PHASE` at its upper end, a delay line of samples. -/
def demo : State := filter 4 3 2 [0x3F000000, 0x3F000000] [0xBF800000, 0x3F800000]

/-- The least Ready block: one tap, `FACTOR` 1, `MAXTAPS` 1, just initialised. -/
def least : State := filter 1 1 0 [0x3F800000] [0]

/-- The demo with commands presented. -/
def demoWith (ws : List HostEvent) : State := { demo with pending := ws }

/-- A Ready state satisfies R33 when a finite check says so. -/
theorem readyInv_of_check {s : State}
    (h : 1 ≤ s32 s.len ∧ s32 s.len ≤ s.maxTaps ∧ 1 ≤ s32 s.factor ∧ (s.cptr.toNat : Int) = s32 s.len ∧
      (s.phase.toNat : Int) ≤ s32 s.factor - 1 ∧ (∀ i, i < s.taps → (s.heldCoef.read i).isSome = true) ∧
      (∀ i, i < s.taps → (s.delay.read i).isSome = true) ∧ s.delay.wf s.taps) : s.ReadyInv :=
  ⟨h.1, h.2.1, h.2.2.1, h.2.2.2.1, h.2.2.2.2.1, h.2.2.2.2.2.1,
    fun i => ⟨fun hi => Store.lt_of_read h.2.2.2.2.2.2.2 hi, h.2.2.2.2.2.2.1 i⟩⟩

theorem demo_readyInv : demo.ReadyInv := readyInv_of_check (by decide +kernel)

theorem least_readyInv : least.ReadyInv := readyInv_of_check (by decide +kernel)

theorem demoWith_readyInv : (demoWith [.command 0x40000000A5]).ReadyInv := readyInv_of_check (by decide +kernel)

theorem demoWith_inv : (demoWith [.command 0x40000000A5]).Inv where
  maxTaps_pos := by decide
  maxTaps_lt := by decide
  coef_wf := by decide
  delay_wf := by decide
  cptr_le := by decide
  coef_below_cptr := demoWith_readyInv.coef_holds
  uninitialized := by intro h; exact absurd h (by decide)
  ready := fun _ => demoWith_readyInv
  responses := by intro r hr; exact absurd hr (List.not_mem_nil)

/-! #### Command words and steps -/

theorem witness_DecodeAcceptsExactlyTheOpcodeMap :
    decode 0x02FFFFFFFF = .ok (.setlen (-1)) ∧ (Instr.setlen 0).row ∈ opcodeTable ∧
      (Instr.setlen 0).row.selects 0x02FFFFFFFF = true :=
  ⟨by decide, List.mem_map_of_mem (by simp), by decide⟩

theorem witness_IllegalWordIsAnsweredAndChangesNothing :
    ([0x0000000000, 0x0600000000, 0xFF00000000, 0x0100000001, 0x0580000000, 0x3000000001, 0x2000000100,
      0x40800000FF].all fun w => !legalWord w) = true ∧
    (demoWith [.command 0x0600000000]).pending = .command 0x0600000000 :: [] := by
  decide +kernel

theorem witness_StepRunsTheDecodedCommand :
    (demoWith [.command 0x40000000A5, .hardReset]).pending = .command 0x40000000A5 :: [.hardReset] ∧
      decode 0x40000000A5 = .ok (.conv 0xA5) := by
  decide

theorem witness_HardResetClearsTheBlock : (demoWith [.hardReset, .command 0]).pending = .hardReset :: [.command 0] := rfl

theorem witness_WithoutACommandTheBlockHoldsItsState : demo.pending = [] := rfl

theorem witness_ResetAndClrLeaveTheResetValues : (demoWith [.hardReset]).pending = .hardReset :: [] := rfl

/-! #### Whole-machine rules -/

theorem witness_EveryStepKeepsTheInvariant :
    (demoWith [.command 0x40000000A5]).Inv ∧
      after State.phase (step (demoWith [.command 0x40000000A5])) = some 1 :=
  ⟨demoWith_inv, by decide +kernel⟩

theorem witness_SoundStatesAlwaysStepOn : (demoWith [.command 0x40000000A5]).Inv := demoWith_inv

theorem witness_FailedCommandChangesNothing :
    ∃ t, exec .init demo = .next t ∧ t.responses = demo.responses ++ [⟨.eState, []⟩] := ⟨_, rfl, rfl⟩

/-- One command for each number of words of the statement; DEC and CONV at both ends. -/
theorem witness_SuccessfulCommandsEmitTheirWordCount :
    (answerOf (exec .clr demo)).map (·.status) = some .ok ∧
    (answerOf (exec (.apply 0) demo)).map (·.status) = some .ok ∧
    (answerOf (exec (.unpk 0xFF) demo)).map (·.status) = some .ok ∧
    answerOf (exec (.dec 0) demo) = some ⟨.ok, [0]⟩ ∧
    answerOf (exec (.dec 0) (filter 4 3 1 [0] [0])) = some ⟨.ok, []⟩ ∧
    (answerOf (exec (.conv 0xA5) least)).map (fun r => (r.status, r.data.length)) = some (.ok, 8) ∧
    answerOf (exec (.conv 0xA5) (filter 4 9 0 [0] [0])) = some ⟨.ok, []⟩ := by
  decide +kernel

theorem witness_WrongStateIsAnsweredWithEState :
    needs .init = some .uninitialized ∧ demo.state ≠ .uninitialized ∧
    needs (.conv 0) = some .ready ∧ (fresh 1).state ≠ .ready ∧
    ∃ t, exec .init demo = .next t ∧ t.lastStatus = some .eState :=
  ⟨rfl, by decide, rfl, by decide, _, rfl, rfl⟩

theorem witness_LifeStateChangesOnlyByInitClrAndReset :
    (∃ t, step { staged 1 1 1 [0] with pending := [.command 0x0500000000] } = .next t ∧
      (staged 1 1 1 [0]).state = .uninitialized ∧ t.state = .ready) ∧
    (∃ t, step (demoWith [.command 0x0100000000]) = .next t ∧ demo.state = .ready ∧ t.state = .uninitialized) ∧
    ∃ t, step (demoWith [.hardReset]) = .next t ∧ demo.state = .ready ∧ t.state = .uninitialized :=
  ⟨⟨_, rfl, rfl, rfl⟩, ⟨_, rfl, rfl, rfl⟩, _, rfl, rfl, rfl⟩

theorem witness_ReadyConfigurationIsFrozen :
    ∃ t, step (demoWith [.command 0x3000000000]) = .next t ∧ (demoWith [.command 0x3000000000]).state = .ready ∧
      t.state = .ready :=
  ⟨_, rfl, rfl, rfl⟩

theorem witness_MaxTapsIsAReadOnlyConstant :
    (∃ t, step (demoWith [.hardReset]) = .next t) ∧ (fresh (2 ^ 32 - 1)).maxTaps < 2 ^ 32 :=
  ⟨⟨_, rfl⟩, by decide⟩

/-! #### Configuration and life cycle -/

theorem witness_SetlenStagesTheLength : (staged 4 2 1 [0]).state = .uninitialized := rfl

theorem witness_SetfacStagesTheFactor : (staged 4 2 1 [0]).state = .uninitialized := rfl

/-- The first element and the last. -/
theorem witness_LdcWritesTheNextCoefficient :
    ((fresh 1).state = .uninitialized ∧ (fresh 1).cptr.toNat < (fresh 1).maxTaps) ∧
    (staged 4 4 1 [0, 0, 0]).state = .uninitialized ∧
      (staged 4 4 1 [0, 0, 0]).cptr.toNat < (staged 4 4 1 [0, 0, 0]).maxTaps ∧
      (staged 4 4 1 [0, 0, 0]).cptr.toNat + 1 < 2 ^ 32 := by
  decide

/-- The least configuration. -/
theorem witness_InitZeroFillsAndMakesReady :
    (staged 1 1 1 [0]).state = .uninitialized ∧ 1 ≤ s32 (staged 1 1 1 [0]).len ∧ 1 ≤ s32 (staged 1 1 1 [0]).factor ∧
      s32 (staged 1 1 1 [0]).len ≤ (staged 1 1 1 [0]).maxTaps ∧
      ((staged 1 1 1 [0]).cptr.toNat : Int) = s32 (staged 1 1 1 [0]).len := by
  decide

theorem witness_InitChecksInOrder :
    demo.state = .ready ∧ s32 (staged 4 0 1 []).len < 1 ∧ s32 (staged 4 0x80000000 1 []).len < 1 ∧
    1 ≤ s32 (staged 4 1 0 []).len ∧ s32 (staged 4 1 0 []).factor < 1 ∧
    1 ≤ s32 (staged 4 5 1 []).len ∧ 1 ≤ s32 (staged 4 5 1 []).factor ∧
      ((staged 4 5 1 []).maxTaps : Int) < s32 (staged 4 5 1 []).len ∧
    1 ≤ s32 (staged 4 4 1 [0]).len ∧ 1 ≤ s32 (staged 4 4 1 [0]).factor ∧
      s32 (staged 4 4 1 [0]).len ≤ (staged 4 4 1 [0]).maxTaps ∧
      ((staged 4 4 1 [0]).cptr.toNat : Int) ≠ s32 (staged 4 4 1 [0]).len ∧
    (staged 4 0 1 []).state = .uninitialized ∧ (staged 4 1 0 []).state = .uninitialized ∧
    (staged 4 5 1 []).state = .uninitialized ∧ (staged 4 4 1 [0]).state = .uninitialized := by
  decide

theorem witness_ConfigurationFailuresHaveExactlyTheirCauses :
    exec .init (staged 4 0 1 []) = .next ((staged 4 0 1 []).answer .eConfig []) ∧
    exec .init (staged 4 1 0 []) = .next ((staged 4 1 0 []).answer .eConfig []) ∧
    exec (.ldc 0) (staged 1 1 1 [0]) = .next ((staged 1 1 1 [0]).answer .eResource []) ∧
    exec .init (staged 4 5 1 []) = .next ((staged 4 5 1 []).answer .eResource []) ∧
    exec .init (staged 4 4 1 [0]) = .next ((staged 4 4 1 [0]).answer .eArg []) ∧
    ∃ t, exec .init (staged 4 4 1 [0]) = .next t ∧ t.lastStatus = some .eArg :=
  ⟨rfl, rfl, rfl, rfl, rfl, _, rfl, rfl⟩

/-! #### The FIR engine and the arithmetic -/

/-- One tap, and two. -/
theorem witness_ApplyShiftsInsertsAndAnswersTheDotProduct :
    (least.state = .ready ∧ 1 ≤ least.taps ∧ least.delay.readFrom 0 (least.taps - 1) = some [] ∧
      least.heldCoef.readFrom 0 least.taps = some [0x3F800000]) ∧
    demo.state = .ready ∧ 1 ≤ demo.taps ∧ demo.delay.readFrom 0 (demo.taps - 1) = some [0xBF800000] ∧
      demo.heldCoef.readFrom 0 demo.taps = some [0x3F000000, 0x3F000000] := by
  decide

theorem witness_ApplyShiftsInsertsAndAnswersTheDotProduct_outputs :
    dot (0x3F800000 :: [0xBF800000]) [0x3F000000, 0x3F000000] = .word 0 ∧
    dot [0x7F800000] [0x00000000] = .unfixedNaN := by
  decide +kernel

theorem witness_FilterIsDirectFormConvolution :
    1 ≤ 2 ∧ (storeOf [0x3F000000, 0x3F000000]).readFrom 0 2 = some [0x3F000000, 0x3F000000] ∧
      0 < ([0x3F800000] : List Word).length := by
  decide

theorem witness_ImpulseResponseIsTheCoefficients :
    1 ≤ 2 ∧ (storeOf [0x3F000000, f32MinusZero]).readFrom 0 2 = some [0x3F000000, f32MinusZero] ∧
      ∀ c, c ∈ ([0x3F000000, f32MinusZero] : List Word) → isFinite c = true := by
  refine ⟨by decide, by decide, fun c hc => ?_⟩
  rcases List.mem_cons.mp hc with rfl | hc
  · decide
  · rcases List.mem_singleton.mp hc with rfl
    decide

/-- A finite product, an infinite one, and a tie between two words. -/
theorem witness_ProductRoundsOnceToNearestEven :
    isFinite 0xC0000000 = true ∧ isFinite 0x7F7FFFFF = true ∧ fmul 0xC0000000 0x7F7FFFFF = .word 0xFF800000 ∧
    isInf 0xFF800000 = true ∧ isFinite 0x00000003 = true ∧ isFinite 0x3F000000 = true ∧
    fmul 0x00000003 0x3F000000 = .word 0x00000002 ∧ isInf 0x00000002 = false ∧
    (f32Value 0x00000002 * 2 ^ 149 - f32Value 0x00000003 * f32Value 0x3F000000).natAbs =
      (f32Value 0x00000001 * 2 ^ 149 - f32Value 0x00000003 * f32Value 0x3F000000).natAbs ∧
    f32Value 0x00000001 ≠ f32Value 0x00000002 := by
  decide +kernel

theorem witness_ProductOfSpecialValues :
    fmul 0x7FC00000 0 = .unfixedNaN ∧ isInf 0xFF800000 = true ∧ isNaN 0x00000001 = false ∧
      isZero 0x00000001 = false := by
  decide +kernel

/-- A tie between two words, an infinite sum, and sums of zero. -/
theorem witness_SumRoundsOnceToNearestEven :
    isFinite 0x4B800000 = true ∧ isFinite 0x3F800000 = true ∧ fadd 0x4B800000 0x3F800000 = .word 0x4B800000 ∧
    isInf 0x4B800000 = false ∧ isFinite 0x4B800001 = true ∧
    (f32Value 0x4B800000 - (f32Value 0x4B800000 + f32Value 0x3F800000)).natAbs =
      (f32Value 0x4B800001 - (f32Value 0x4B800000 + f32Value 0x3F800000)).natAbs ∧
    f32Value 0x4B800001 ≠ f32Value 0x4B800000 ∧
    isFinite 0x7F7FFFFF = true ∧ fadd 0x7F7FFFFF 0x7F7FFFFF = .word 0x7F800000 ∧
    isFinite f32MinusZero = true ∧ f32Value f32MinusZero + f32Value f32MinusZero = 0 := by
  decide +kernel

theorem witness_SumOfSpecialValues :
    fadd 0x7F800000 0xFF800000 = .unfixedNaN ∧ isInf 0x7F800000 = true ∧ isFinite 0x7F7FFFFF = true := by
  decide +kernel

theorem witness_UnpackingIsInjective : unpackByte 0xFF = unpackByte 0xFF := rfl

/-! #### The decimator, the quantizer and the pipeline -/

theorem witness_DsyncStartsANewFrame : demo.state = .ready := rfl

/-- `PHASE` at its lower end, and at its upper end. -/
theorem witness_DecAnswersTheLastSampleOfEachGroup :
    demo.state = .ready ∧ 1 ≤ s32 demo.factor ∧ (demo.phase.toNat : Int) ≤ s32 demo.factor - 1 ∧
    (demo.phase.toNat : Int) = s32 demo.factor - 1 ∧
    (filter 4 2 0 [0] [0]).state = .ready ∧ 1 ≤ s32 (filter 4 2 0 [0] [0]).factor ∧
    ((filter 4 2 0 [0] [0]).phase.toNat : Int) < s32 (filter 4 2 0 [0] [0]).factor - 1 := by
  decide

theorem witness_DecimatorKeepsOneInFactor : 1 ≤ s32 1 ∧ 1 ≤ s32 0x7FFFFFFF := by decide

theorem witness_QntScalesClipsAndTruncates : isNaN 0x7F800000 = false ∧ isNaN 0x80000000 = false := by decide

theorem witness_QuantizerIsMonotone :
    isNaN 0xFF800000 = false ∧ isNaN 0x7F800000 = false ∧ f32Value 0xFF800000 ≤ f32Value 0x7F800000 := by
  decide +kernel

theorem witness_QuantizerIsOddAwayFromTheLowerBound :
    quantize 0x3F800000 = some 32767 ∧ quantize (0x3F800000 ^^^ 0x80000000) = some (-32767) ∧
      (32767 : Sample) ≠ -32768 ∧ (-32767 : Sample) ≠ -32768 := by
  decide +kernel

/-- The coefficients and the delay line of V-C7: with the byte `0x05` the second sample is a NaN. -/
def nanDemo : State := filter 4 1 0 [0x7F800000, 0xFF800000] [0xBF800000, 0]

theorem nanDemo_readyInv : nanDemo.ReadyInv := readyInv_of_check (by decide +kernel)

/-- The first case: a kept NaN. -/
theorem witness_ConvRunsThePipelineOnOneByte_nan :
    nanDemo.state = .ready ∧ nanDemo.ReadyInv ∧
    nanDemo.delay.readFrom 0 nanDemo.taps = some [0xBF800000, 0] ∧
    nanDemo.heldCoef.readFrom 0 nanDemo.taps = some [0x7F800000, 0xFF800000] ∧
    ∃ k, k < 8 ∧ convKeeps nanDemo.factor nanDemo.phase k = true ∧
      quantizeResult (convOutput nanDemo.taps [0xBF800000, 0] [0x7F800000, 0xFF800000] 0x05 k) = none :=
  ⟨rfl, nanDemo_readyInv, by decide, by decide, 4, by decide, by decide, by decide +kernel⟩

/-- The second case: every kept output is a sample. -/
theorem witness_ConvRunsThePipelineOnOneByte :
    demo.state = .ready ∧ demo.ReadyInv ∧
    demo.delay.readFrom 0 demo.taps = some [0xBF800000, 0x3F800000] ∧
    demo.heldCoef.readFrom 0 demo.taps = some [0x3F000000, 0x3F000000] ∧
    ∀ k, k < 8 → convKeeps demo.factor demo.phase k = true →
      quantizeResult (convOutput demo.taps [0xBF800000, 0x3F800000] [0x3F000000, 0x3F000000] 0xA5 k) ≠ none :=
  ⟨rfl, demo_readyInv, by decide, by decide, by decide +kernel⟩

/-- Right after INIT the delay line holds a zero; the coefficients may be the largest finite words. -/
theorem witness_ConvCompletesOnPdmHistoryWithFiniteCoefficients :
    least.state = .ready ∧ least.ReadyInv ∧
    (∀ i w, i < least.taps → least.heldCoef.read i = some w → isFinite w = true) ∧
    ∀ i w, i < least.taps → least.delay.read i = some w → w = f32PlusOne ∨ w = f32MinusOne ∨ isZero w = true := by
  refine ⟨rfl, least_readyInv, ?_, ?_⟩
  all_goals
    have h : least.taps = 1 := rfl
    rw [h]
    intro i w hi hw
    have h0 : i = 0 := by omega
    subst h0
    injection hw with hw
    subst hw
    decide

theorem witness_ConvEqualsItsParts :
    answerOf (exec (.conv 0xF0) demo) = some ⟨.ok, [0xFFFF8001, 0xFFFF8001, 0x00007FFF]⟩ := by
  decide +kernel

theorem witness_OnlyTheQuantizerAnswersENan :
    answerOf (exec (.qnt 0x7FC00000) demo) = some ⟨.eNan, []⟩ ∧
    answerOf (exec (.conv 0x05) nanDemo) = some ⟨.eNan, []⟩ ∧ isNaN 0x7FC00000 = true :=
  ⟨by decide +kernel, by decide +kernel, by decide⟩

/-! #### Read-back and responses -/

theorem witness_RdsAnswersTheControlRegisters : 6 ≤ (6 : Word).toNat ∧ 6 ≤ (0xFFFFFFFF : Word).toNat := by decide

/-- The last readable index, and the first unreadable one. -/
theorem witness_RdcAnswersTheCoefficient :
    ((1 : Word).toNat < demo.cptr.toNat ∧ demo.heldCoef.read (1 : Word).toNat = some 0x3F000000) ∧
      demo.cptr.toNat ≤ (2 : Word).toNat := by
  decide

theorem witness_RddAnswersTheDelayLineElement :
    demo.state = .ready ∧ ((1 : Word).toNat < demo.len.toNat ∧ demo.delay.read (1 : Word).toNat = some 0x3F800000) ∧
      demo.len.toNat ≤ (2 : Word).toNat := by
  decide

theorem witness_RangeFailuresHaveExactlyTheirCauses :
    exec (.rds 6) demo = .next (demo.answer .eRange []) ∧ exec (.rdc 2) demo = .next (demo.answer .eRange []) ∧
      exec (.rdd 2) demo = .next (demo.answer .eRange []) := ⟨rfl, rfl, rfl⟩

theorem witness_ReadsHaveNoSideEffect :
    (∃ t, exec (.rds 4) demo = .next t) ∧ (∃ t, exec (.rdc 1) demo = .next t) ∧ ∃ t, exec (.rdd 2) demo = .next t :=
  ⟨⟨_, rfl⟩, ⟨_, rfl⟩, _, rfl⟩

theorem witness_UnpkAndQntTouchNoState :
    (∃ t, exec (.unpk 1) demo = .next t) ∧ answerOf (exec (.qnt 0x7FC00000) demo) = some ⟨.eNan, []⟩ :=
  ⟨⟨_, rfl⟩, by decide +kernel⟩

/-- A sound state in which CONV reads both stores, and states that break R27 or R33, in which an element that is read
holds no value. -/
theorem witness_OnlyValuelessElementsFault :
    (demoWith [.command 0x40000000A5]).Inv ∧ readsOnlyValues (.rdc 1) demo ∧
    ¬ readsOnlyValues (.rdc 1) { demo with coef := [] } ∧ ¬ readsOnlyValues (.rdd 0) { demo with delay := [] } ∧
    ¬ readsOnlyValues (.apply 0) { demo with cptr := 1 } :=
  ⟨demoWith_inv, fun _ => rfl, fun h => absurd (h (by decide)) (by decide),
    fun h => absurd (h rfl (by decide)) (by decide), fun h => absurd ((h rfl).2 1 (by decide)) (by decide)⟩

theorem witness_HeaderByteCarriesStatusAndCount : (⟨.ok, unpackByte 0⟩ : Response).data.length ≤ 8 := by decide

/-- V-A2: the sums before the last tap, and with it. -/
theorem witness_DotProductRoundsEachTapInAscendingOrder :
    ([0x3F800000, 0x3F800000] : List Word).length = ([0x4B800000, 0x3F800000] : List Word).length ∧
    dot [0x3F800000, 0x3F800000] [0x4B800000, 0x3F800000] = .word 0x4B800000 ∧
    dot ([0x3F800000, 0x3F800000] ++ [0x3F800000]) ([0x4B800000, 0x3F800000] ++ [0xCB800000]) = .word 0 := by
  decide +kernel

end Sys2Proof.Tests
end

section
/-! PROOFS. How every command ends, said once, and what follows for the whole machine: the invariant, the absence of
faults in sound states, the one response per command (spec/00_scope.md R18, R19; spec/10_state.md R27 to R33). -/

namespace Sys2Proof.Machine

/-! ### How a command ends -/

/-- `Succeeds s i u data`: in state `s` the checks of command `i` pass, its work on the block leads from `s` to `u`,
and it emits `data` (R70 to R110). The host's side of `u` is still that of `s`. -/
inductive Succeeds (s : State) : Instr → State → List Word → Prop where
  | clr : Succeeds s .clr s.clearBlock []
  | setlen (n : Word) (hs : s.state = .uninitialized) : Succeeds s (.setlen n) { s with len := n, cptr := 0 } []
  | setfac (n : Word) (hs : s.state = .uninitialized) : Succeeds s (.setfac n) { s with factor := n } []
  | ldc (v : Word) (hs : s.state = .uninitialized) (hroom : s.cptr.toNat < s.maxTaps) :
      Succeeds s (.ldc v) { s with coef := s.coef.write s.cptr.toNat v, cptr := s.cptr + 1 } []
  | init (hs : s.state = .uninitialized) (hlen : 1 ≤ s32 s.len) (hfactor : 1 ≤ s32 s.factor)
      (hfits : s32 s.len ≤ s.maxTaps) (hcptr : (s.cptr.toNat : Int) = s32 s.len) :
      Succeeds s .init { s with delay := s.delay.zeroFill s.taps, phase := 0, state := .ready } []
  | apply (x : Word) {d : Store} {y : FloatResult} (n : Nat) (w : Word) (hs : s.state = .ready)
      (hfir : firStep s.taps s.heldCoef s.delay x = some (d, y)) :
      Succeeds s (.apply x) { s with delay := d, nanDraws := n } [w]
  | unpk (b : Byte) : Succeeds s (.unpk b) s (unpackByte b)
  | dsync (hs : s.state = .ready) : Succeeds s .dsync { s with phase := 0 } []
  | dec (x : Word) (hs : s.state = .ready) :
      Succeeds s (.dec x) { s with phase := (decStep s.factor s.phase).2 }
        (if (decStep s.factor s.phase).1 then [x] else [])
  | qnt (x : Word) {q : Sample} (hq : quantize x = some q) : Succeeds s (.qnt x) s [sext32 q]
  | conv (b : Byte) {w : ConvWork} (hs : s.state = .ready)
      (hloop : convSamples s.taps s.heldCoef s.factor (unpackByte b) ⟨s.delay, s.phase, []⟩ = .ok w) :
      Succeeds s (.conv b) { s with delay := w.delay, phase := w.phase } w.out
  | rds (r : Word) {w : Word} (hr : s.statusRegister (idx r) = some w) : Succeeds s (.rds r) s [w]
  | rdc (k : Word) {w : Word} (hw : s.heldCoef.read (idx k) = some w) : Succeeds s (.rdc k) s [w]
  | rdd (k : Word) {w : Word} (hs : s.state = .ready) (hw : s.delay.read (idx k) = some w) :
      Succeeds s (.rdd k) s [w]

/-- The three ends of a command: it fails and changes nothing (R18), it succeeds, or it runs into an element without
a value (R19). -/
inductive Ends (i : Instr) (s : State) : Result → Prop where
  | failed (e : Status) (hvalues : readsOnlyValues i s) (he : e ≠ .ok) : Ends i s (s.fail e)
  | succeeded {u : State} {data : List Word} (hvalues : readsOnlyValues i s) (hu : Succeeds s i u data) :
      Ends i s (u.done data)
  | valueless (hvalues : ¬ readsOnlyValues i s) : Ends i s (.fault .noValue)

theorem execSetlen_ends (n : Word) (s : State) : Ends (.setlen n) s (execSetlen n s) := by
  unfold execSetlen
  split
  · exact .failed _ trivial (by decide)
  · next hs => exact .succeeded trivial (.setlen n (not_not.mp hs))

theorem execSetfac_ends (n : Word) (s : State) : Ends (.setfac n) s (execSetfac n s) := by
  unfold execSetfac
  split
  · exact .failed _ trivial (by decide)
  · next hs => exact .succeeded trivial (.setfac n (not_not.mp hs))

theorem execLdc_ends (v : Word) (s : State) : Ends (.ldc v) s (execLdc v s) := by
  unfold execLdc
  split
  · exact .failed _ trivial (by decide)
  · next hs =>
    split
    · exact .failed _ trivial (by decide)
    · next hroom => exact .succeeded trivial (.ldc v (not_not.mp hs) (not_le.mp hroom))

/-- INIT: each of the five checks of R74 fails by its own code. -/
theorem execInit_ends (s : State) : Ends .init s (execInit s) := by
  unfold execInit
  split
  · exact .failed _ trivial (by decide)
  next hs =>
  split
  · exact .failed _ trivial (by decide)
  next hlen =>
  split
  · exact .failed _ trivial (by decide)
  next hfactor =>
  split
  · exact .failed _ trivial (by decide)
  next hfits =>
  split
  · exact .failed _ trivial (by decide)
  next hcptr =>
    exact .succeeded trivial
      (.init (not_not.mp hs) (not_lt.mp hlen) (not_lt.mp hfactor) (not_lt.mp hfits) (not_not.mp hcptr))

/-- The filter's operands, as the filter step and as `readsOnlyValues` put it. -/
theorem readsOnlyValues_apply_iff {s : State} (hs : s.state = .ready) (x y : Word) :
    readsOnlyValues (.apply y) s ↔ (firStep s.taps s.heldCoef s.delay x).isSome := by
  rw [firStep_isSome]
  exact ⟨fun h => h hs, fun h _ => h⟩

/-- CONV reads what APPLY reads: its first filter step decides (R80, R102). -/
theorem readsOnlyValues_conv_iff {s : State} (hs : s.state = .ready) (x : Word) (b : Byte) :
    readsOnlyValues (.conv b) s ↔ (firStep s.taps s.heldCoef s.delay x).isSome :=
  readsOnlyValues_apply_iff hs x x

theorem execApply_ends (x : Word) (s : State) : Ends (.apply x) s (execApply x s) := by
  unfold execApply
  split
  · next hs => exact .failed _ (fun h => absurd h hs) (by decide)
  · next hs =>
    have hready := not_not.mp hs
    have hvalues := readsOnlyValues_apply_iff hready x x
    split
    · next hfir => exact .valueless (by simp [hvalues, hfir])
    · next d y hfir =>
      obtain ⟨w, n, hemit, -⟩ := State.emitFloat_eq { s with delay := d } y
      rw [hemit]
      exact .succeeded (hvalues.mpr (by simp [hfir])) (.apply x n w hready hfir)

theorem execDsync_ends (s : State) : Ends .dsync s (execDsync s) := by
  unfold execDsync
  split
  · exact .failed _ trivial (by decide)
  · next hs => exact .succeeded trivial (.dsync (not_not.mp hs))

theorem execDec_ends (x : Word) (s : State) : Ends (.dec x) s (execDec x s) := by
  unfold execDec
  split
  · exact .failed _ trivial (by decide)
  · next hs =>
    have hdec := Succeeds.dec x (not_not.mp hs)
    split
    all_goals
      next p hp =>
        rw [hp] at hdec
        exact .succeeded trivial hdec

theorem execQnt_ends (x : Word) (s : State) : Ends (.qnt x) s (execQnt x s) := by
  unfold execQnt
  split
  · exact .failed _ trivial (by decide)
  · next q hq => exact .succeeded trivial (.qnt x hq)

/-- A filter step that cannot run stops CONV at its first sample (R102). -/
theorem convSamples_cons_of_firStep_none {taps : Nat} {coef : Store} {factor x : Word} {xs : List Word} {w : ConvWork}
    (h : firStep taps coef w.delay x = none) :
    convSamples taps coef factor (x :: xs) w = .error (.fault .noValue) := by
  simp [convSamples, convSample, h]

theorem execConv_ends (b : Byte) (s : State) : Ends (.conv b) s (execConv b s) := by
  unfold execConv
  split
  · next hs => exact .failed _ (fun h => absurd h hs) (by decide)
  · next hs =>
    have hready := not_not.mp hs
    by_cases hvalues : readsOnlyValues (.conv b) s
    · obtain ⟨hdelay, hcoef⟩ := hvalues hready
      have hne := convSamples_ne_noValue (factor := s.factor) (xs := unpackByte b) (w := ⟨s.delay, s.phase, []⟩)
        hdelay hcoef
      split
      · next e he =>
        rcases convSamples_eq_error he with rfl | rfl
        · exact absurd he hne
        · exact .failed _ hvalues (by decide)
      · next w hw => exact .succeeded hvalues (.conv b hready hw)
    · have hnone : firStep s.taps s.heldCoef s.delay (unpackBit b 0) = none := by
        rw [← Option.not_isSome_iff_eq_none]
        exact fun h => hvalues ((readsOnlyValues_conv_iff hready (unpackBit b 0) b).mpr h)
      have hstop : convSamples s.taps s.heldCoef s.factor (unpackByte b) ⟨s.delay, s.phase, []⟩ =
          .error (.fault .noValue) := convSamples_cons_of_firStep_none hnone
      rw [hstop]
      exact .valueless hvalues

theorem execRds_ends (r : Word) (s : State) : Ends (.rds r) s (execRds r s) := by
  unfold execRds
  split
  · exact .failed _ trivial (by decide)
  · next w hw => exact .succeeded trivial (.rds r hw)

theorem execRdc_ends (k : Word) (s : State) : Ends (.rdc k) s (execRdc k s) := by
  unfold execRdc
  split
  · next hk => exact .failed _ (fun h => absurd h (not_lt.mpr hk)) (by decide)
  · next hk =>
    have hvalues : readsOnlyValues (.rdc k) s ↔ (s.heldCoef.read (idx k)).isSome :=
      ⟨fun h => h (not_le.mp hk), fun h _ => h⟩
    split
    · next hnone => exact .valueless (by simp [hvalues, hnone])
    · next w hw => exact .succeeded (hvalues.mpr (by simp [hw])) (.rdc k hw)

theorem execRdd_ends (k : Word) (s : State) : Ends (.rdd k) s (execRdd k s) := by
  unfold execRdd
  split
  · next hs => exact .failed _ (fun h => absurd h hs) (by decide)
  next hs =>
  split
  · next hk => exact .failed _ (fun _ h => absurd h (not_lt.mpr hk)) (by decide)
  next hk =>
    have hready := not_not.mp hs
    have hvalues : readsOnlyValues (.rdd k) s ↔ (s.delay.read (idx k)).isSome :=
      ⟨fun h => h hready (not_le.mp hk), fun h _ _ => h⟩
    split
    · next hnone => exact .valueless (by simp [hvalues, hnone])
    · next w hw => exact .succeeded (hvalues.mpr (by simp [hw])) (.rdd k hready hw)

/-- Every command in every state has one of the three ends. -/
theorem exec_ends (i : Instr) (s : State) : Ends i s (exec i s) := by
  cases i with
  | clr => exact .succeeded trivial .clr
  | setlen n => exact execSetlen_ends n s
  | setfac n => exact execSetfac_ends n s
  | ldc v => exact execLdc_ends v s
  | init => exact execInit_ends s
  | apply x => exact execApply_ends x s
  | unpk b => exact .succeeded trivial (.unpk b)
  | dsync => exact execDsync_ends s
  | dec x => exact execDec_ends x s
  | qnt x => exact execQnt_ends x s
  | conv b => exact execConv_ends b s
  | rds r => exact execRds_ends r s
  | rdc k => exact execRdc_ends k s
  | rdd k => exact execRdd_ends k s

/-- A command that is answered has failed and changed nothing, or has succeeded. -/
theorem exec_next_cases {i : Instr} {s t : State} (h : exec i s = .next t) :
    (∃ e, e ≠ .ok ∧ t = s.answer e []) ∨ ∃ u data, Succeeds s i u data ∧ t = u.answer .ok data := by
  have hends := exec_ends i s
  rw [h] at hends
  cases hends with
  | failed e _ he => exact .inl ⟨e, he, rfl⟩
  | succeeded _ hu => exact .inr ⟨_, _, hu, rfl⟩

theorem exec_next_of_readsOnlyValues {i : Instr} {s : State} (h : readsOnlyValues i s) :
    ∃ t, exec i s = .next t := by
  cases hr : exec i s with
  | next t => exact ⟨t, rfl⟩
  | fault r => cases hr ▸ exec_ends i s with | valueless hvalues => exact absurd h hvalues
  | refused r => cases hr ▸ exec_ends i s

theorem exec_fault_of_not_readsOnlyValues {i : Instr} {s : State} (h : ¬ readsOnlyValues i s) :
    exec i s = .fault .noValue := by
  have hends := exec_ends i s
  generalize exec i s = r at hends ⊢
  cases hends with
  | failed _ hvalues => exact absurd hvalues h
  | succeeded hvalues _ => exact absurd hvalues h
  | valueless _ => rfl

/-! ### The host's side -/

/-- The work of a command leaves the host's side to `State.answer` (R45). -/
theorem Succeeds.hostSide {s u : State} {i : Instr} {data : List Word} (h : Succeeds s i u data) :
    u.pending = s.pending ∧ u.responses = s.responses := by
  cases h <;> exact ⟨rfl, rfl⟩

/-- A successful command emits at most eight words (R52). -/
theorem Succeeds.length_le {s u : State} {i : Instr} {data : List Word} (h : Succeeds s i u data) :
    data.length ≤ 8 := by
  cases h with
  | conv b _ hloop => simpa using convSamples_out_length hloop
  | dec x _ => split <;> simp
  | _ => simp

/-- Settles O13, from the three ends of a command: a failure is `s.answer e []`, a success answers `OK`. -/
theorem failedCommandChangesNothing : Obligations.FailedCommandChangesNothing := by
  intro i s t h
  rcases exec_next_cases h with ⟨e, -, rfl⟩ | ⟨u, data, hu, rfl⟩
  · exact ⟨⟨e, []⟩, rfl, rfl, fun _ => rfl⟩
  · obtain ⟨hpending, hresponses⟩ := hu.hostSide
    exact ⟨⟨.ok, data⟩, by simp [hresponses], by simp [hpending], fun h => absurd rfl h⟩

/-! ### Elements without a value -/

/-- A word that is positive as a signed number is the same number unsigned (R8). -/
theorem s32_eq_toNat {w : Word} (h : 1 ≤ s32 w) : s32 w = w.toNat := by
  unfold s32 at *
  rw [BitVec.toInt_eq_toNat_cond] at *
  have := w.isLt
  split at h <;> split <;> omega

/-- `LEN`, once it is positive, is the number of taps. -/
theorem State.taps_eq_len {s : State} (h : 1 ≤ s32 s.len) : s.taps = s.len.toNat := by
  rw [State.taps, s32_eq_toNat h, Int.toNat_natCast]

/-- In a sound state every command reads only elements that hold a value (R19, R27, R33). -/
theorem State.Inv.readsOnlyValues {s : State} (h : s.Inv) (i : Instr) : readsOnlyValues i s := by
  have hfilter : s.state = .ready →
      (∀ j, j + 1 < s.taps → (s.delay.read j).isSome) ∧ ∀ j, j < s.taps → (s.heldCoef.read j).isSome := fun hs =>
    ⟨fun j hj => ((h.ready hs).delay_holds j).mpr (by omega), (h.ready hs).coef_holds⟩
  cases i with
  | apply x => exact hfilter
  | conv b => exact hfilter
  | rdc k => exact h.coef_below_cptr k.toNat
  | rdd k =>
    intro hs hk
    have hinv := h.ready hs
    exact (hinv.delay_holds k.toNat).mpr (State.taps_eq_len hinv.len_pos ▸ hk)
  | _ => trivial

/-- Settles O54: sound states read only values, and the three ends of a command tell the rest apart. -/
theorem onlyValuelessElementsFault : Obligations.OnlyValuelessElementsFault := by
  refine fun i s => ⟨fun h => h.readsOnlyValues i, ⟨exec_next_of_readsOnlyValues, ?_⟩,
    ⟨exec_fault_of_not_readsOnlyValues, ?_⟩⟩
  · rintro ⟨t, ht⟩
    by_contra hvalues
    simp [exec_fault_of_not_readsOnlyValues hvalues] at ht
  · intro hfault hvalues
    obtain ⟨t, ht⟩ := exec_next_of_readsOnlyValues hvalues
    simp [ht] at hfault

/-! ### One step -/

/-- What one step can do: nothing when nothing is presented, a hard reset, an illegal word, or a command. -/
theorem step_cases (s : State) :
    step s = .next s ∨ step s = .next s.hardReset ∨ step s = .next (s.answer .eIllegal []) ∨
      ∃ i, step s = exec i s := by
  unfold step
  split
  · exact .inl rfl
  · exact .inr (.inl rfl)
  · split
    · exact .inr (.inr (.inl rfl))
    · exact .inr (.inr (.inr ⟨_, rfl⟩))

/-- Settles O12: a command in a sound state reads only values, so it is answered. -/
theorem soundStatesAlwaysStepOn : Obligations.SoundStatesAlwaysStepOn := by
  intro s hinv
  rcases step_cases s with h | h | h | ⟨i, h⟩
  · exact ⟨_, h⟩
  · exact ⟨_, h⟩
  · exact ⟨_, h⟩
  · obtain ⟨t, ht⟩ := exec_next_of_readsOnlyValues (hinv.readsOnlyValues i)
    exact ⟨t, h.trans ht⟩

/-! ### The invariant -/

/-- The invariant does not speak of what the host will do, and of the responses only as R52 has them. -/
theorem State.Inv.withHostSide {s : State} (h : s.Inv) (p : List HostEvent) {rs : List Response}
    (hrs : ∀ r ∈ rs, r.Sound) : { s with pending := p, responses := rs }.Inv :=
  { h with
    uninitialized := fun hs => { h.uninitialized hs with }
    ready := fun hs => { h.ready hs with }
    responses := hrs }

/-- Answering keeps the invariant when the response is as R52 has it. -/
theorem State.Inv.answer {s : State} (h : s.Inv) {e : Status} {data : List Word} (hr : Response.Sound ⟨e, data⟩) :
    (s.answer e data).Inv := by
  refine h.withHostSide s.pending.tail fun r hmem => ?_
  rcases List.mem_append.mp hmem with hold | hnew
  · exact h.responses r hold
  · exact List.mem_singleton.mp hnew ▸ hr

/-- A failure is answered without data (R52). -/
theorem Response.sound_nil (e : Status) : Response.Sound ⟨e, []⟩ := ⟨by simp, fun _ => rfl⟩

/-- A cleared block is sound, whatever the host has read and will do (R28, R31, R35). -/
theorem State.inv_of_cleared {s : State} (hpos : 1 ≤ s.maxTaps) (hlt : s.maxTaps < 2 ^ 32)
    (hresp : ∀ r ∈ s.responses, r.Sound) : s.clearBlock.Inv where
  maxTaps_pos := hpos
  maxTaps_lt := hlt
  coef_wf := Store.wf_nil _
  delay_wf := Store.wf_nil _
  cptr_le := by simp
  coef_below_cptr i hi := by simp at hi
  uninitialized _ := ⟨rfl, rfl⟩
  ready hs := by simp at hs
  responses := hresp

/-- Settles O10: the state after reset is a cleared block. -/
theorem resetStateIsSound : Obligations.ResetStateIsSound :=
  State.inv_of_cleared (s := State.reset) Config.maxTaps_pos Config.maxTaps_lt (by simp)

theorem State.Inv.clearBlock {s : State} (h : s.Inv) : s.clearBlock.Inv :=
  State.inv_of_cleared h.maxTaps_pos h.maxTaps_lt h.responses

/-- In state Uninitialized `LEN`, `FACTOR`, `CPTR` and `COEF` may be staged freely, as long as the coefficients below
`CPTR` hold values (R27, R30). -/
theorem State.Inv.stage {s : State} (h : s.Inv) (hs : s.state = .uninitialized) (n f c : Word) (k : Store)
    (hwf : k.wf s.maxTaps) (hc : c.toNat ≤ s.maxTaps) (hk : ∀ i, i < c.toNat → (k.read i).isSome) :
    { s with len := n, factor := f, cptr := c, coef := k }.Inv :=
  { h with
    coef_wf := hwf
    cptr_le := hc
    coef_below_cptr := fun i (hi : i < c.toNat) => by
      rw [State.heldCoef_read, if_pos hi]
      exact hk i hi
    uninitialized := fun _ => { h.uninitialized hs with }
    ready := fun hr => by simp [hs] at hr }

/-- Below `CPTR` the store itself holds the coefficients (R27, R30). -/
theorem State.Inv.coef_isSome {s : State} (h : s.Inv) {i : Nat} (hi : i < s.cptr.toNat) :
    (s.coef.read i).isSome := by
  have := h.coef_below_cptr i hi
  rwa [State.heldCoef_read, if_pos hi] at this

theorem State.Inv.ldc {s : State} (h : s.Inv) (hs : s.state = .uninitialized) (hroom : s.cptr.toNat < s.maxTaps)
    (v : Word) : { s with coef := s.coef.write s.cptr.toNat v, cptr := s.cptr + 1 }.Inv := by
  have hnext : (s.cptr + 1).toNat = s.cptr.toNat + 1 := by
    have := h.maxTaps_lt
    rw [BitVec.toNat_add]
    exact Nat.mod_eq_of_lt (show s.cptr.toNat + 1 < 2 ^ 32 by omega)
  refine h.stage hs s.len s.factor _ _ (Store.wf_write v h.coef_wf hroom) (by omega) fun i hi => ?_
  rw [Store.read_write]
  split
  · rfl
  · exact h.coef_isSome (by omega)

/-- A successful INIT establishes the invariants of state Ready (R33, R74). -/
theorem State.Inv.init {s : State} (h : s.Inv) (hs : s.state = .uninitialized) (hlen : 1 ≤ s32 s.len)
    (hfactor : 1 ≤ s32 s.factor) (hfits : s32 s.len ≤ s.maxTaps) (hcptr : (s.cptr.toNat : Int) = s32 s.len) :
    { s with delay := s.delay.zeroFill s.taps, phase := 0, state := .ready }.Inv := by
  have htaps : (s.taps : Int) = s32 s.len := Int.toNat_of_nonneg (by omega)
  exact { h with
    delay_wf := Store.wf_zeroFill h.delay_wf (show s.taps ≤ s.maxTaps by omega)
    uninitialized := nofun
    ready := fun _ => {
      len_pos := hlen
      len_le := hfits
      factor_pos := hfactor
      cptr_eq := hcptr
      phase_le := show (0 : Int) ≤ s32 s.factor - 1 by omega
      coef_holds := fun i (hi : i < s.taps) => h.coef_below_cptr i (by omega)
      delay_holds := fun i => by
        rw [Store.read_zeroFill, (h.uninitialized hs).delay_empty]
        show _ ↔ i < s.taps
        split <;> simp [*] } }

/-- In state Ready `PHASE` is below `FACTOR`, both unsigned (R33). -/
theorem State.ReadyInv.phase_lt {s : State} (h : s.ReadyInv) : s.phase.toNat < s.factor.toNat := by
  have hphase := h.phase_le
  rw [s32_eq_toNat h.factor_pos] at hphase
  omega

theorem State.ReadyInv.taps_pos {s : State} (h : s.ReadyInv) : 1 ≤ s.taps := by
  have := h.len_pos
  unfold State.taps
  omega

theorem State.ReadyInv.taps_le {s : State} (h : s.ReadyInv) : s.taps ≤ s.maxTaps := by
  have := h.len_le
  unfold State.taps
  omega

/-- What the commands of state Ready may do to the delay line and to `PHASE` (R28, R31, R33, R38). -/
structure ReadyWork (s : State) (d : Store) (p : Word) : Prop where
  delay_wf : d.wf s.maxTaps
  delay_holds : ∀ i, (d.read i).isSome ↔ i < s.taps
  phase_lt : p.toNat < s.factor.toNat

theorem State.Inv.readyWork {s : State} (h : s.Inv) (hs : s.state = .ready) : ReadyWork s s.delay s.phase where
  delay_wf := h.delay_wf
  delay_holds := (h.ready hs).delay_holds
  phase_lt := (h.ready hs).phase_lt

theorem State.Inv.withReadyWork {s : State} {d : Store} {p : Word} (h : s.Inv) (hs : s.state = .ready)
    (hw : ReadyWork s d p) (n : Nat) : { s with delay := d, phase := p, nanDraws := n }.Inv :=
  { h with
    delay_wf := hw.delay_wf
    uninitialized := fun hu => by simp [hs] at hu
    ready := fun _ => { h.ready hs with
      phase_le := by
        have hlt := hw.phase_lt
        rw [s32_eq_toNat (h.ready hs).factor_pos]
        show (p.toNat : Int) ≤ s.factor.toNat - 1
        omega
      delay_holds := hw.delay_holds } }

/-- A filter step keeps the delay line as R31 and R38 have it. -/
theorem ReadyWork.firStep {s : State} {d d' : Store} {p : Word} {coef : Store} {x : Word} {y : FloatResult}
    (hw : ReadyWork s d p) (hinv : s.ReadyInv) (h : firStep s.taps coef d x = some (d', y)) : ReadyWork s d' p where
  delay_wf := firStep_wf hw.delay_wf hinv.taps_pos hinv.taps_le h
  delay_holds i := by
    have hpos := hinv.taps_pos
    rw [firStep_read h]
    split
    · simp; omega
    · split
      · rw [hw.delay_holds]
        omega
      · exact hw.delay_holds i
  phase_lt := hw.phase_lt

/-- A decimator step keeps `PHASE` below `FACTOR` (R28, R92). -/
theorem ReadyWork.decStep {s : State} {d : Store} {p : Word} (hw : ReadyWork s d p) :
    ReadyWork s d (decStep s.factor p).2 where
  delay_wf := hw.delay_wf
  delay_holds := hw.delay_holds
  phase_lt := by
    rw [(decStep_spec hw.phase_lt).2]
    exact Nat.mod_lt _ (by have := hw.phase_lt; omega)

/-- CONV's loop keeps its working copy as the commands of state Ready keep the block (R104). -/
theorem ReadyWork.convSamples {s : State} {coef : Store} {xs : List Word} {w w' : ConvWork}
    (hw : ReadyWork s w.delay w.phase) (hinv : s.ReadyInv)
    (h : convSamples s.taps coef s.factor xs w = .ok w') : ReadyWork s w'.delay w'.phase := by
  refine convSamples_induct (P := fun w => ReadyWork s w.delay w.phase) (fun x v v' hv hstep => ?_) hw h
  obtain ⟨y, hfir, hphase, -⟩ := convSample_eq_ok hstep
  rw [hphase]
  exact (hv.firStep hinv hfir).decStep

/-- The work of a successful command keeps the invariant. -/
theorem Succeeds.inv {s u : State} {i : Instr} {data : List Word} (h : Succeeds s i u data) (hinv : s.Inv) :
    u.Inv := by
  cases h with
  | clr => exact hinv.clearBlock
  | setlen n hs => exact hinv.stage hs n s.factor 0 s.coef hinv.coef_wf (by simp) fun i hi => by simp at hi
  | setfac n hs =>
    exact hinv.stage hs s.len n s.cptr s.coef hinv.coef_wf hinv.cptr_le fun _ => hinv.coef_isSome
  | ldc v hs hroom => exact hinv.ldc hs hroom v
  | init hs hlen hfactor hfits hcptr => exact hinv.init hs hlen hfactor hfits hcptr
  | apply x n w hs hfir =>
    exact hinv.withReadyWork hs ((hinv.readyWork hs).firStep (hinv.ready hs) hfir) n
  | dsync hs =>
    have hw := hinv.readyWork hs
    have hzero : ReadyWork s s.delay 0 := ⟨hw.delay_wf, hw.delay_holds, Nat.zero_lt_of_lt hw.phase_lt⟩
    exact hinv.withReadyWork hs hzero s.nanDraws
  | dec x hs => exact hinv.withReadyWork hs (hinv.readyWork hs).decStep s.nanDraws
  | conv b hs hloop =>
    exact hinv.withReadyWork hs ((hinv.readyWork hs).convSamples (hinv.ready hs) hloop) s.nanDraws
  | unpk | qnt | rds | rdc | rdd => exact hinv

/-- Settles O11: the four things a step can do each keep the invariant, a command by the ends it can have. -/
theorem everyStepKeepsTheInvariant : Obligations.EveryStepKeepsTheInvariant := by
  intro s t hinv hstep
  rcases step_cases s with h | h | h | ⟨i, h⟩ <;> rw [h] at hstep
  · cases hstep
    exact hinv
  · cases hstep
    exact hinv.clearBlock.withHostSide _ hinv.responses
  · cases hstep
    exact hinv.answer (Response.sound_nil _)
  · rcases exec_next_cases hstep with ⟨e, -, rfl⟩ | ⟨u, data, hu, rfl⟩
    · exact hinv.answer (Response.sound_nil e)
    · exact (hu.inv hinv).answer ⟨hu.length_le, fun h => absurd rfl h⟩

end Sys2Proof.Machine
end

section
/-! PROOFS. The filter's command and the binary32 arithmetic: APPLY, the dot product, the comparisons, the special
cases of product and sum (spec/00_scope.md R12 to R14; spec/41_fir.md R80, R81). -/

namespace Sys2Proof.Machine

/-! ### The dot product and APPLY (R80, R81) -/

/-- Settles O56: `dot` is a left fold over the taps, so that the last tap is added last. -/
theorem dotProductRoundsEachTapInAscendingOrder : Obligations.DotProductRoundsEachTapInAscendingOrder :=
  ⟨dot_nil, fun _ _ d c h => dot_append h d c⟩

/-- The filter step from the elements it reads: the operand goes in front of all but the oldest sample (R80). -/
theorem firStep_of_readFrom {taps : Nat} {coef delay : Store} {prev cs : List Word} (x : Word) (htaps : 1 ≤ taps)
    (hprev : delay.readFrom 0 (taps - 1) = some prev) (hcs : coef.readFrom 0 taps = some cs) :
    ∃ d, firStep taps coef delay x = some (d, dot (x :: prev) cs) := by
  have hdelay := (Store.readFrom_isSome delay 0 (taps - 1)).mp (by simp [hprev])
  have hcoef := (Store.readFrom_isSome coef 0 taps).mp (by simp [hcs])
  simp only [Nat.zero_add] at hdelay hcoef
  obtain ⟨⟨d, y⟩, hfir⟩ := Option.isSome_iff_exists.mp
    ((firStep_isSome taps coef delay x).mpr ⟨fun i hi => hdelay i (by omega), hcoef⟩)
  obtain ⟨ds, cs', hds, hcs', rfl⟩ := firStep_output hfir
  have hline : d.readFrom 0 taps = some (x :: prev) := by
    obtain ⟨hlen, hread⟩ := Store.readFrom_eq_some_iff.mp hprev
    refine Store.readFrom_eq_some_iff.mpr ⟨by simp only [List.length_cons]; omega, fun j hj => ?_⟩
    rw [firStep_read hfir]
    cases j with
    | zero => simp
    | succ j => simpa [hj] using hread j (by omega)
  obtain rfl : ds = x :: prev := Option.some.inj (hds.symm.trans hline)
  obtain rfl : cs' = cs := Option.some.inj (hcs'.symm.trans hcs)
  exact ⟨d, hfir⟩

theorem exec_apply_of_firStep {s : State} {x : Word} {d : Store} {y : FloatResult} (hs : s.state = .ready)
    (hfir : firStep s.taps s.heldCoef s.delay x = some (d, y)) :
    exec (.apply x) s = { s with delay := d }.emitFloat y := by
  simp [exec, execApply, hs, hfir]

/-- Settles O26, from what the filter step does to the delay line and what it answers. -/
theorem applyShiftsInsertsAndAnswersTheDotProduct : Obligations.ApplyShiftsInsertsAndAnswersTheDotProduct := by
  intro x s prev cs hs htaps hprev hcs
  obtain ⟨d, hfir⟩ := firStep_of_readFrom x htaps hprev hcs
  obtain ⟨w, n, hemit, hword, hnan⟩ := State.emitFloat_eq { s with delay := d } (dot (x :: prev) cs)
  exact ⟨d, n, w, (exec_apply_of_firStep hs hfir).trans hemit, firStep_read hfir, hword, hnan⟩

/-! ### The comparisons (R14) -/

theorem fgt_iff (a b : Word) : fgt a b = true ↔ isNaN a = false ∧ isNaN b = false ∧ f32Value b < f32Value a := by
  simp [fgt, and_assoc]

theorem flt_iff (a b : Word) : flt a b = true ↔ isNaN a = false ∧ isNaN b = false ∧ f32Value a < f32Value b := by
  simp [flt, and_assoc]

/-- Settles O33: the comparisons are the order of the values of two words that are no NaN. -/
theorem comparisonsAreOrdered : Obligations.ComparisonsAreOrdered :=
  ⟨fgt_iff, flt_iff, by decide, by decide⟩

/-! ### The classes of words exclude one another (R10) -/

theorem isNaN_of_isInf {w : Word} (h : isInf w = true) : isNaN w = false := by
  simp only [isInf, Bool.and_eq_true, beq_iff_eq] at h
  simp [isNaN, h.2]

theorem isZero_of_isInf {w : Word} (h : isInf w = true) : isZero w = false := by
  simp only [isInf, f32Exponent_eq, f32Fraction_eq, Bool.and_eq_true, beq_iff_eq] at h
  rw [isZero_eq, decide_eq_false_iff_not]
  omega

theorem isNaN_of_isFinite {w : Word} (h : isFinite w = true) : isNaN w = false := by
  simp only [isFinite, bne_iff_ne] at h
  simp [isNaN, h]

theorem isInf_of_isFinite {w : Word} (h : isFinite w = true) : isInf w = false := by
  simp only [isFinite, bne_iff_ne] at h
  simp [isInf, h]

theorem isFinite_of_not {w : Word} (hnan : isNaN w = false) (hinf : isInf w = false) : isFinite w = true := by
  simp only [isNaN, isInf, isFinite, Bool.and_eq_false_iff, bne_iff_ne, bne_eq_false_iff_eq, beq_eq_false_iff_ne]
    at *
  tauto

/-! ### The special cases of the product (R12) -/

/-- An infinite operand gives an infinity, once the NaN cases are out of the way. -/
theorem fmul_of_isInf {a b : Word} (h : fmul a b ≠ .unfixedNaN) (hinf : isInf a = true ∨ isInf b = true) :
    fmul a b = .word (f32Pack (f32Sign a ^^ f32Sign b) f32InfBits) := by
  unfold fmul at *
  split at h
  · exact absurd rfl h
  next hnan =>
  split at h
  · exact absurd rfl h
  next hzero => rw [if_neg hnan, if_neg hzero, if_pos (by simpa using hinf)]

/-- Settles O30, from the NaN cases of `fmul` and the classes, which exclude one another. -/
theorem productOfSpecialValues : Obligations.ProductOfSpecialValues := by
  intro a b
  refine ⟨fmul_eq_nan_iff a b, fun h => ?_⟩
  have hword : fmul a b ≠ .unfixedNaN := by
    rw [Ne, fmul_eq_nan_iff]
    rcases h with ⟨ha, hb, hzero⟩ | ⟨hb, ha, hzero⟩
    · simp [isNaN_of_isInf ha, isZero_of_isInf ha, hb, hzero]
    · simp [isNaN_of_isInf hb, isZero_of_isInf hb, ha, hzero]
  have hlt : f32InfBits < 2 ^ 31 := by norm_num [f32InfBits]
  refine ⟨_, fmul_of_isInf hword (h.imp And.left And.left), ?_, f32Sign_pack _ hlt⟩
  simp [isInf_pack _ hlt]

/-! ### The special cases of the sum (R13) -/

theorem fadd_of_isInf_left {a b : Word} (h : fadd a b ≠ .unfixedNaN) (ha : isInf a = true) :
    fadd a b = .word a := by
  unfold fadd at *
  split at h
  · exact absurd rfl h
  next hnan =>
  split at h
  · exact absurd rfl h
  next hopposite => rw [if_neg hnan, if_neg hopposite, if_pos ha]

theorem fadd_of_isInf_right {a b : Word} (h : fadd a b ≠ .unfixedNaN) (ha : isInf a = false) (hb : isInf b = true) :
    fadd a b = .word b := by
  unfold fadd at *
  split at h
  · exact absurd rfl h
  next hnan =>
  split at h
  · exact absurd rfl h
  next hopposite => rw [if_neg hnan, if_neg hopposite, if_neg (by simp [ha]), if_pos hb]

/-- Settles O32, from the NaN cases of `fadd`: neither a finite word nor the same infinity makes one. -/
theorem sumOfSpecialValues : Obligations.SumOfSpecialValues := by
  intro a b
  refine ⟨fadd_eq_nan_iff a b, ?_, ?_⟩
  · rintro ha (hb | rfl)
    · refine fadd_of_isInf_left (fun h => ?_) ha
      simp [fadd_eq_nan_iff, isNaN_of_isInf ha, isNaN_of_isFinite hb, isInf_of_isFinite hb] at h
    · refine fadd_of_isInf_left (fun h => ?_) ha
      simp [fadd_eq_nan_iff, isNaN_of_isInf ha] at h
  · rintro hb (ha | rfl)
    · refine fadd_of_isInf_right (fun h => ?_) (isInf_of_isFinite ha) hb
      simp [fadd_eq_nan_iff, isNaN_of_isInf hb, isNaN_of_isFinite ha, isInf_of_isFinite ha] at h
    · refine fadd_of_isInf_left (fun h => ?_) hb
      simp [fadd_eq_nan_iff, isNaN_of_isInf hb] at h

end Sys2Proof.Machine
end

section
/-! PROOFS. One rounding, to nearest with ties to even (spec/00_scope.md R9, R12, R13): the magnitudes of the binary32
patterns as a grid, the grid points around an exact result, and which of them is taken. -/

namespace Sys2Proof.Machine

/-! ### The magnitudes of the patterns -/

/-- The magnitude, in units of 2^-149, of the words whose low 31 bits are `m` (R9). -/
def patternMagnitude (m : Nat) : Nat :=
  if m < 2 ^ 23 then m else (2 ^ 23 + m % 2 ^ 23) * 2 ^ (m / 2 ^ 23 - 1)

theorem f32Magnitude_pack_eq (negative : Bool) {m : Nat} (hm : m < 2 ^ 31) :
    f32Magnitude (f32Pack negative m) = patternMagnitude m := f32Magnitude_pack negative hm

theorem f32Magnitude_eq (w : Word) : f32Magnitude w = patternMagnitude (w.toNat % 2 ^ 31) := by
  conv_lhs => rw [← f32Pack_eta w]
  exact f32Magnitude_pack_eq _ (Nat.mod_lt _ (by norm_num))

/-- The pattern of a significand `r` on the binade of step `2^d`, the carry into the next binade included. -/
theorem patternMagnitude_eq {d r : Nat} (hr : r ≤ 2 ^ 24) (hd : d = 0 ∨ 2 ^ 23 ≤ r) :
    patternMagnitude (d * 2 ^ 23 + r) = r * 2 ^ d := by
  unfold patternMagnitude
  by_cases hsub : r < 2 ^ 23
  · obtain rfl : d = 0 := by omega
    rw [if_pos (by omega)]
    simp
  rw [if_neg (by omega)]
  by_cases hcarry : r = 2 ^ 24
  · subst hcarry
    rw [show (d * 2 ^ 23 + 2 ^ 24) % 2 ^ 23 = 0 by omega, show (d * 2 ^ 23 + 2 ^ 24) / 2 ^ 23 - 1 = d + 1 by omega,
      pow_succ]
    ring
  · rw [show (d * 2 ^ 23 + r) % 2 ^ 23 = r - 2 ^ 23 by omega, show (d * 2 ^ 23 + r) / 2 ^ 23 - 1 = d by omega,
      show 2 ^ 23 + (r - 2 ^ 23) = r by omega]

/-- A larger pattern has a larger magnitude. -/
theorem patternMagnitude_strictMono : StrictMono patternMagnitude := by
  refine strictMono_nat_of_lt_succ fun m => ?_
  obtain ⟨d, r, rfl, hr, hd⟩ : ∃ d r, m = d * 2 ^ 23 + r ∧ r < 2 ^ 24 ∧ (d = 0 ∨ 2 ^ 23 ≤ r) :=
    ⟨m / 2 ^ 23 - 1, m - (m / 2 ^ 23 - 1) * 2 ^ 23, by omega, by omega, by omega⟩
  rw [add_assoc, patternMagnitude_eq hr.le hd, patternMagnitude_eq hr (by omega)]
  exact Nat.mul_lt_mul_of_pos_right (Nat.lt_succ_self r) (Nat.two_pow_pos d)

@[simp] theorem patternMagnitude_zero : patternMagnitude 0 = 0 := rfl

theorem natAbs_f32Value (w : Word) : (f32Value w).natAbs = f32Magnitude w := by
  unfold f32Value
  split <;> simp

/-! ### Rounding a whole number to a multiple -/

/-- `n / D` to the nearest whole number, a tie to the even one. -/
def nearestEven (n D : Nat) : Nat :=
  if D < 2 * (n % D) ∨ 2 * (n % D) = D ∧ n / D % 2 = 1 then n / D + 1 else n / D

theorem nearestEven_eq_or (n D : Nat) : nearestEven n D = n / D ∨ nearestEven n D = n / D + 1 := by
  unfold nearestEven
  split <;> simp

/-- Of all numbers outside the gap between the two multiples of `D` around `n`, none is nearer to `n` than the one
taken, and one equally near is taken only when it is even. -/
theorem nearestEven_nearest {n D : Nat} (hD : 0 < D) {x : Int}
    (hx : x ≤ ((n / D * D : Nat) : Int) ∨ (((n / D + 1) * D : Nat) : Int) ≤ x) :
    (((nearestEven n D * D : Nat) : Int) - n).natAbs ≤ (x - n).natAbs ∧
      ((((nearestEven n D * D : Nat) : Int) - n).natAbs = (x - n).natAbs → x ≠ ((nearestEven n D * D : Nat) : Int) →
        nearestEven n D % 2 = 0) := by
  have hn := Nat.div_add_mod' n D
  have hr := Nat.mod_lt n hD
  rw [Nat.succ_mul] at hx
  unfold nearestEven
  generalize n / D = q at *
  generalize n % D = r at *
  split
  · next hup =>
    rw [Nat.succ_mul]
    generalize q * D = m at *
    omega
  · next hdown =>
    generalize q * D = m at *
    omega

/-! ### What `f32Round` rounds away -/

/-- How many low bits `f32Round` rounds away. -/
def roundDrop (n k : Nat) : Nat := max k (n.log2 - 23)

theorem f32Round_eq (n k : Nat) :
    f32Round n k = min ((roundDrop n k - k) * 2 ^ 23 + nearestEven n (2 ^ roundDrop n k)) f32InfBits := rfl

theorem le_roundDrop (n k : Nat) : k ≤ roundDrop n k := Nat.le_max_left _ _

/-- At most 24 significant bits are left. -/
theorem quotient_lt (n k : Nat) : n / 2 ^ roundDrop n k < 2 ^ 24 := by
  refine Nat.div_lt_of_lt_mul (lt_of_lt_of_le Nat.lt_log2_self ?_)
  rw [← pow_add]
  refine Nat.pow_le_pow_right (by norm_num) ?_
  have : n.log2 - 23 ≤ roundDrop n k := Nat.le_max_right _ _
  omega

/-- All 24 significant bits are left, unless the result is on the finest grid (gradual underflow). -/
theorem le_quotient (n k : Nat) : roundDrop n k = k ∨ 2 ^ 23 ≤ n / 2 ^ roundDrop n k := by
  rcases le_total (n.log2 - 23) k with h | h
  · exact .inl (Nat.max_eq_left h)
  by_cases heq : n.log2 - 23 = k
  · exact .inl (Nat.max_eq_left heq.le)
  refine .inr ?_
  have hn : n ≠ 0 := by
    rintro rfl
    have := Nat.log2_zero
    omega
  rw [Nat.le_div_iff_mul_le (Nat.two_pow_pos _), show roundDrop n k = n.log2 - 23 from Nat.max_eq_right h, ← pow_add,
    show 23 + (n.log2 - 23) = n.log2 by omega]
  exact Nat.log2_self_le hn

/-- The magnitude of a pattern next to the exact result, in the units of the exact result. -/
theorem patternMagnitude_round {n k r : Nat} (hr : r = n / 2 ^ roundDrop n k ∨ r = n / 2 ^ roundDrop n k + 1) :
    patternMagnitude ((roundDrop n k - k) * 2 ^ 23 + r) * 2 ^ k = r * 2 ^ roundDrop n k := by
  have hlt := quotient_lt n k
  have hle := le_quotient n k
  rw [patternMagnitude_eq (by omega) (by omega), mul_assoc, ← pow_add, Nat.sub_add_cancel (le_roundDrop n k)]

/-- No pattern lies strictly between the two around the exact result. -/
theorem patternMagnitude_gap (n k m : Nat) :
    patternMagnitude m * 2 ^ k ≤ n / 2 ^ roundDrop n k * 2 ^ roundDrop n k ∨
      (n / 2 ^ roundDrop n k + 1) * 2 ^ roundDrop n k ≤ patternMagnitude m * 2 ^ k := by
  rw [← patternMagnitude_round (.inl rfl), ← patternMagnitude_round (.inr rfl)]
  rcases le_or_gt m ((roundDrop n k - k) * 2 ^ 23 + n / 2 ^ roundDrop n k) with h | h
  · exact .inl (Nat.mul_le_mul_right _ (patternMagnitude_strictMono.monotone h))
  · exact .inr (Nat.mul_le_mul_right _ (patternMagnitude_strictMono.monotone h))

/-! ### Overflow -/

/-- Rounding carries out of 24 bits from halfway beyond the largest 24-bit significand on. -/
theorem carry_iff {n B : Nat} (hB : 0 < B) (hlt : n / (2 * B) < 2 ^ 24) :
    2 ^ 24 ≤ nearestEven n (2 * B) ↔ (2 ^ 25 - 1) * B ≤ n := by
  have hn := Nat.div_add_mod' n (2 * B)
  have hr := Nat.mod_lt n (show 0 < 2 * B by omega)
  unfold nearestEven
  generalize n / (2 * B) = q at *
  generalize n % (2 * B) = r at *
  by_cases hlast : q = 2 ^ 24 - 1
  · subst hlast
    split <;> omega
  · have hfew : q * (2 * B) ≤ (2 ^ 24 - 2) * (2 * B) := Nat.mul_le_mul_right _ (by omega)
    split <;> omega

/-- Rounding overflows from halfway beyond the largest finite magnitude on (R12, R13): below the last binade
no carry suffices, in the last a carry decides, and above it every result overflows. -/
theorem f32Round_eq_inf_iff (n k : Nat) : f32Round n k = f32InfBits ↔ (2 ^ 25 - 1) * 2 ^ 252 * 2 ^ k ≤ n := by
  have hlt := quotient_lt n k
  have hle := le_quotient n k
  have hq := nearestEven_eq_or n (2 ^ roundDrop n k)
  have hD : 2 ^ roundDrop n k = 2 ^ (roundDrop n k - k) * 2 ^ k := by
    rw [← pow_add, Nat.sub_add_cancel (le_roundDrop n k)]
  have hB : 0 < 2 ^ 252 * 2 ^ k := by positivity
  rw [f32Round_eq, min_eq_right_iff, mul_assoc]
  unfold f32InfBits
  rcases Nat.lt_trichotomy (roundDrop n k - k) 253 with hd | hd | hd
  · have hstep : 2 ^ roundDrop n k ≤ 2 ^ 252 * 2 ^ k := by
      rw [hD]
      exact Nat.mul_le_mul_right _ (Nat.pow_le_pow_right (by norm_num) (by omega))
    have hbound : n < 2 ^ 24 * (2 ^ 252 * 2 ^ k) :=
      lt_of_lt_of_le ((Nat.div_lt_iff_lt_mul (Nat.two_pow_pos _)).mp hlt) (Nat.mul_le_mul_left _ hstep)
    generalize 2 ^ 252 * 2 ^ k = B at *
    omega
  · have hstep : 2 ^ roundDrop n k = 2 * (2 ^ 252 * 2 ^ k) := by
      rw [hD, hd, pow_succ', mul_assoc]
    rw [hstep] at hlt ⊢
    rw [← carry_iff hB hlt, hd]
    omega
  · have hstep : 2 ^ 254 * 2 ^ k ≤ 2 ^ roundDrop n k := by
      rw [hD]
      exact Nat.mul_le_mul_right _ (Nat.pow_le_pow_right (by norm_num) hd)
    have hmany : 2 ^ 23 * 2 ^ roundDrop n k ≤ n :=
      (Nat.mul_le_mul_right _ (by omega)).trans (Nat.div_mul_le_self n _)
    rw [show 2 ^ 254 * 2 ^ k = 4 * (2 ^ 252 * 2 ^ k) by ring] at hstep
    generalize 2 ^ 252 * 2 ^ k = B at *
    generalize 2 ^ roundDrop n k = D at *
    omega

/-! ### The rounded word -/

/-- The word whose sign is given and whose magnitude is `n` units of 2^-(149 + k), rounded once. -/
def roundedWord (negative : Bool) (n k : Nat) : Word := f32Pack negative (f32Round n k)

theorem isNaN_roundedWord (negative : Bool) (n k : Nat) : isNaN (roundedWord negative n k) = false := by
  rw [roundedWord, isNaN_pack _ (f32Round_lt n k), decide_eq_false_iff_not]
  exact not_lt.mpr (f32Round_le n k)

@[simp] theorem f32Sign_roundedWord (negative : Bool) (n k : Nat) :
    f32Sign (roundedWord negative n k) = negative := f32Sign_pack negative (f32Round_lt n k)

theorem isInf_roundedWord_iff (negative : Bool) (n k : Nat) :
    isInf (roundedWord negative n k) = true ↔ (2 ^ 25 - 1) * 2 ^ 252 * 2 ^ k ≤ n := by
  rw [roundedWord, isInf_pack _ (f32Round_lt n k), decide_eq_true_eq, f32Round_eq_inf_iff]

/-- Without overflow the pattern is that of the nearest multiple. -/
theorem f32Round_of_isInf_false {negative : Bool} {n k : Nat} (h : isInf (roundedWord negative n k) = false) :
    f32Round n k = (roundDrop n k - k) * 2 ^ 23 + nearestEven n (2 ^ roundDrop n k) := by
  rw [roundedWord, isInf_pack _ (f32Round_lt n k), decide_eq_false_iff_not] at h
  rw [f32Round_eq] at h ⊢
  omega

theorem f32Magnitude_roundedWord {negative : Bool} {n k : Nat} (h : isInf (roundedWord negative n k) = false) :
    f32Magnitude (roundedWord negative n k) * 2 ^ k = nearestEven n (2 ^ roundDrop n k) * 2 ^ roundDrop n k := by
  rw [roundedWord, f32Magnitude_pack_eq _ (f32Round_lt n k), f32Round_of_isInf_false h]
  exact patternMagnitude_round (nearestEven_eq_or _ _)

/-- A pattern and the significand it holds have the same last bit. -/
theorem getLsbD_roundedWord {negative : Bool} {n k : Nat} (h : isInf (roundedWord negative n k) = false)
    (heven : nearestEven n (2 ^ roundDrop n k) % 2 = 0) : (roundedWord negative n k).getLsbD 0 = false := by
  rw [roundedWord, BitVec.getLsbD, f32Pack_toNat _ (f32Round_lt n k), f32Round_of_isInf_false h,
    Nat.testBit_zero, decide_eq_false_iff_not]
  split <;> omega

/-- No word is nearer to the exact magnitude than the rounded one, and one equally near is even: `y` is the value of
any word, taken with the sign of the exact result. -/
theorem roundedWord_nearest_magnitude {negative : Bool} {n k : Nat} (h : isInf (roundedWord negative n k) = false)
    {v : Word} {y : Int} (hy : y.natAbs = f32Magnitude v) :
    ((f32Magnitude (roundedWord negative n k) : Int) * 2 ^ k - n).natAbs ≤ (y * 2 ^ k - n).natAbs ∧
      (((f32Magnitude (roundedWord negative n k) : Int) * 2 ^ k - n).natAbs = (y * 2 ^ k - n).natAbs →
        y ≠ f32Magnitude (roundedWord negative n k) → (roundedWord negative n k).getLsbD 0 = false) := by
  have hmag : (f32Magnitude (roundedWord negative n k) : Int) * 2 ^ k =
      ((nearestEven n (2 ^ roundDrop n k) * 2 ^ roundDrop n k : Nat) : Int) := by
    rw [← f32Magnitude_roundedWord h]
    push_cast
    rfl
  have hgap : y * 2 ^ k ≤ ((n / 2 ^ roundDrop n k * 2 ^ roundDrop n k : Nat) : Int) ∨
      (((n / 2 ^ roundDrop n k + 1) * 2 ^ roundDrop n k : Nat) : Int) ≤ y * 2 ^ k := by
    have hpow : (0 : Int) < 2 ^ k := by positivity
    rcases Int.natAbs_eq y with hpos | hneg
    · have hyk : y * 2 ^ k = ((f32Magnitude v * 2 ^ k : Nat) : Int) := by
        rw [hpos, hy]
        push_cast
        rfl
      rw [hyk, f32Magnitude_eq, Int.ofNat_le, Int.ofNat_le]
      exact patternMagnitude_gap n k _
    · left
      have : y * 2 ^ k ≤ 0 := mul_nonpos_of_nonpos_of_nonneg (by omega) hpow.le
      omega
  obtain ⟨hnear, htie⟩ := nearestEven_nearest (Nat.two_pow_pos (roundDrop n k)) hgap
  rw [hmag]
  refine ⟨hnear, fun heq hne => getLsbD_roundedWord h (htie heq fun hyk => hne ?_)⟩
  rw [← hmag] at hyk
  exact mul_right_cancel₀ (by positivity) hyk

/-- The rounded word of an exact result `X`, in units of 2^-(149 + k): no word is nearer, and one equally near with
another value means that the rounded word is even (R12, R13). -/
theorem roundedWord_nearest {negative : Bool} {X : Int} {k : Nat}
    (hsign : if negative then X ≤ 0 else 0 ≤ X) (h : isInf (roundedWord negative X.natAbs k) = false) (v : Word) :
    (f32Value (roundedWord negative X.natAbs k) * 2 ^ k - X).natAbs ≤ (f32Value v * 2 ^ k - X).natAbs ∧
      ((f32Value (roundedWord negative X.natAbs k) * 2 ^ k - X).natAbs = (f32Value v * 2 ^ k - X).natAbs →
        f32Value v ≠ f32Value (roundedWord negative X.natAbs k) →
          (roundedWord negative X.natAbs k).getLsbD 0 = false) := by
  cases negative with
  | false =>
    have hX : (X.natAbs : Int) = X := Int.natAbs_of_nonneg hsign
    have hval : f32Value (roundedWord false X.natAbs k) = f32Magnitude (roundedWord false X.natAbs k) := by
      simp [f32Value]
    have hnear := roundedWord_nearest_magnitude h (natAbs_f32Value v)
    rwa [hX, ← hval] at hnear
  | true =>
    have hX : (X.natAbs : Int) = -X := Int.ofNat_natAbs_of_nonpos hsign
    have hval : (f32Magnitude (roundedWord true X.natAbs k) : Int) = -f32Value (roundedWord true X.natAbs k) := by
      simp [f32Value]
    have hnear := roundedWord_nearest_magnitude h (v := v) (y := -f32Value v)
      (by rw [Int.natAbs_neg, natAbs_f32Value])
    have hflip : ∀ z : Int, (-z * 2 ^ k - -X).natAbs = (z * 2 ^ k - X).natAbs := fun z => by
      rw [← Int.natAbs_neg]
      congr 1
      ring
    rw [hX, hval, hflip, hflip, Ne, neg_inj] at hnear
    exact hnear

/-! ### The product (R12) -/

theorem fmul_of_isFinite {a b : Word} (ha : isFinite a = true) (hb : isFinite b = true) :
    fmul a b = .word (roundedWord (f32Sign a ^^ f32Sign b) (f32Value a * f32Value b).natAbs 149) := by
  simp [fmul, isNaN_of_isFinite, isInf_of_isFinite, ha, hb, roundedWord, Int.natAbs_mul, natAbs_f32Value]

theorem f32Value_nonpos {w : Word} (h : f32Sign w = true) : f32Value w ≤ 0 := by
  simp [f32Value, h]

theorem f32Value_nonneg {w : Word} (h : f32Sign w = false) : 0 ≤ f32Value w := by
  simp [f32Value, h]

/-- The sign of the product agrees with that of the exact product. -/
theorem f32Value_mul_sign (a b : Word) :
    if f32Sign a ^^ f32Sign b then f32Value a * f32Value b ≤ 0 else 0 ≤ f32Value a * f32Value b := by
  cases ha : f32Sign a <;> cases hb : f32Sign b
  · exact mul_nonneg (f32Value_nonneg ha) (f32Value_nonneg hb)
  · exact mul_nonpos_of_nonneg_of_nonpos (f32Value_nonneg ha) (f32Value_nonpos hb)
  · exact mul_nonpos_of_nonpos_of_nonneg (f32Value_nonpos ha) (f32Value_nonneg hb)
  · exact mul_nonneg_of_nonpos_of_nonpos (f32Value_nonpos ha) (f32Value_nonpos hb)

/-- Settles O29: the product of finite words is the rounded word of the exact product. -/
theorem productRoundsOnceToNearestEven : Obligations.ProductRoundsOnceToNearestEven := fun a b ha hb =>
  ⟨_, fmul_of_isFinite ha hb, isNaN_roundedWord _ _ _, f32Sign_roundedWord _ _ _, isInf_roundedWord_iff _ _ _,
    fun hinf v _ => roundedWord_nearest (f32Value_mul_sign a b) hinf v⟩

/-! ### The sum (R13) -/

/-- The sign of the sum of two finite words: that of the exact sum, and for an exact sum of zero `-` only when both
operands are negative. -/
def sumSign (a b : Word) : Bool :=
  if f32Value a + f32Value b = 0 then f32Sign a && f32Sign b else decide (f32Value a + f32Value b < 0)

theorem fadd_of_isFinite {a b : Word} (ha : isFinite a = true) (hb : isFinite b = true) :
    fadd a b = .word (roundedWord (sumSign a b) (f32Value a + f32Value b).natAbs 0) := by
  simp only [fadd, isNaN_of_isFinite, isInf_of_isFinite, ha, hb, sumSign, roundedWord, Bool.or_self, Bool.and_self,
    Bool.false_and, Bool.false_eq_true, if_false]
  split
  · next h0 => simp [h0]
  · rfl

theorem f32Value_add_sign (a b : Word) :
    if sumSign a b then f32Value a + f32Value b ≤ 0 else 0 ≤ f32Value a + f32Value b := by
  unfold sumSign
  by_cases h0 : f32Value a + f32Value b = 0
  · simp [h0]
  · by_cases hneg : f32Value a + f32Value b < 0
    · simp [h0, hneg, hneg.le]
    · simp [h0, hneg, not_lt.mp hneg]

/-- A negative word of value zero is `-0.0`. -/
theorem eq_minusZero_of_f32Value {w : Word} (hs : f32Sign w = true) (hv : f32Value w = 0) : w = f32MinusZero := by
  have hmag : patternMagnitude (w.toNat % 2 ^ 31) = patternMagnitude 0 := by
    rw [← f32Magnitude_eq, ← natAbs_f32Value, hv, patternMagnitude_zero, Int.natAbs_zero]
  rw [← f32Pack_eta w, hs, patternMagnitude_strictMono.injective hmag]
  rfl

/-- An exact sum of zero is `+0.0` unless both operands are `-0.0` (R13). -/
theorem roundedWord_sumSign_zero {a b : Word} (h0 : f32Value a + f32Value b = 0) :
    roundedWord (sumSign a b) 0 0 =
      if a = f32MinusZero ∧ b = f32MinusZero then f32MinusZero else f32PlusZero := by
  have hboth : (f32Sign a = true ∧ f32Sign b = true) ↔ a = f32MinusZero ∧ b = f32MinusZero := by
    constructor
    · rintro ⟨ha, hb⟩
      have hva := f32Value_nonpos ha
      have hvb := f32Value_nonpos hb
      exact ⟨eq_minusZero_of_f32Value ha (by omega), eq_minusZero_of_f32Value hb (by omega)⟩
    · rintro ⟨rfl, rfl⟩
      decide
  rw [sumSign, if_pos h0, roundedWord, f32Round_zero]
  by_cases h : f32Sign a = true ∧ f32Sign b = true
  · rw [if_pos (hboth.mp h), h.1, h.2]
    rfl
  · rw [if_neg (mt hboth.mpr h), (by simpa using h : (f32Sign a && f32Sign b) = false)]
    rfl

/-- Settles O31: the sum of finite words is the rounded word of the exact sum. -/
theorem sumRoundsOnceToNearestEven : Obligations.SumRoundsOnceToNearestEven := by
  intro a b ha hb
  refine ⟨_, fadd_of_isFinite ha hb, isNaN_roundedWord _ _ _, fun h0 => ?_, fun h0 => ?_, ?_, fun hinf v _ => ?_⟩
  · rw [h0]
    exact roundedWord_sumSign_zero h0
  · rw [f32Sign_roundedWord, sumSign, if_neg h0]
  · simpa only [pow_zero, mul_one] using isInf_roundedWord_iff (sumSign a b) (f32Value a + f32Value b).natAbs 0
  · simpa only [pow_zero, mul_one] using roundedWord_nearest (f32Value_add_sign a b) hinf v

end Sys2Proof.Machine
end

section
/-! PROOFS. CONV on a history of PDM samples with finite coefficients never meets a NaN (spec/00_scope.md R12, R13;
spec/41_fir.md R80; spec/44_pipeline.md R102, R103). -/

namespace Sys2Proof.Machine

/-! ### One tap -/

/-- What a delay line of PDM samples holds: `+1.0`, `-1.0`, or a zero that INIT left (R74, R88). -/
def IsPdmLevel (w : Word) : Prop := w = f32PlusOne ∨ w = f32MinusOne ∨ isZero w = true

/-- The largest finite magnitude is below the threshold of overflow (R9, R12). -/
theorem f32Magnitude_lt_of_isFinite {w : Word} (h : isFinite w = true) :
    f32Magnitude w < (2 ^ 25 - 1) * 2 ^ 252 := by
  have hpattern : w.toNat % 2 ^ 31 ≤ 253 * 2 ^ 23 + (2 ^ 24 - 1) := by
    simp only [isFinite, bne_iff_ne, f32Exponent_eq] at h
    omega
  calc f32Magnitude w = patternMagnitude (w.toNat % 2 ^ 31) := f32Magnitude_eq w
    _ ≤ patternMagnitude (253 * 2 ^ 23 + (2 ^ 24 - 1)) := patternMagnitude_strictMono.monotone hpattern
    _ = (2 ^ 24 - 1) * 2 ^ 253 := patternMagnitude_eq (by norm_num) (.inr (by norm_num))
    _ < (2 ^ 25 - 1) * 2 ^ 252 := by norm_num

theorem isFinite_of_isZero {w : Word} (h : isZero w = true) : isFinite w = true := by
  rw [isZero_eq, decide_eq_true_eq] at h
  simp only [isFinite, bne_iff_ne, f32Exponent_eq]
  omega

theorem IsPdmLevel.isFinite {w : Word} (h : IsPdmLevel w) : isFinite w = true := by
  rcases h with rfl | rfl | hzero
  · decide
  · decide
  · exact isFinite_of_isZero hzero

/-- A PDM level is at most 1 in magnitude, which is 2^149 units. -/
theorem IsPdmLevel.magnitude_le {w : Word} (h : IsPdmLevel w) : f32Magnitude w ≤ 2 ^ 149 := by
  rcases h with rfl | rfl | hzero
  · decide
  · decide
  · rw [isZero_eq, decide_eq_true_eq] at hzero
    rw [f32Magnitude_eq, hzero]
    exact Nat.zero_le _

/-- The product of a PDM level and a finite coefficient is finite (R12). -/
theorem fmul_pdm_isFinite {d c : Word} (hd : IsPdmLevel d) (hc : isFinite c = true) :
    ∃ p, fmul d c = .word p ∧ isFinite p = true := by
  refine ⟨_, fmul_of_isFinite hd.isFinite hc, isFinite_of_not (isNaN_roundedWord _ _ _) ?_⟩
  rw [← Bool.not_eq_true, isInf_roundedWord_iff, not_le, Int.natAbs_mul, natAbs_f32Value, natAbs_f32Value]
  calc f32Magnitude d * f32Magnitude c ≤ 2 ^ 149 * f32Magnitude c := Nat.mul_le_mul_right _ hd.magnitude_le
    _ < 2 ^ 149 * ((2 ^ 25 - 1) * 2 ^ 252) :=
      Nat.mul_lt_mul_of_pos_left (f32Magnitude_lt_of_isFinite hc) (Nat.two_pow_pos _)
    _ = (2 ^ 25 - 1) * 2 ^ 252 * 2 ^ 149 := Nat.mul_comm _ _

/-- A finite term added to what is no NaN gives no NaN: it cannot be the opposite infinity (R13). -/
theorem fadd_isFinite_ne_nan {a p : Word} (ha : isNaN a = false) (hp : isFinite p = true) :
    ∃ w, fadd a p = .word w ∧ isNaN w = false := by
  cases h : fadd a p with
  | word w => exact ⟨w, rfl, isNaN_of_fadd h⟩
  | unfixedNaN => simp [fadd_eq_nan_iff, ha, isNaN_of_isFinite hp, isInf_of_isFinite hp] at h

theorem mac_pdm {a d c : Word} (ha : isNaN a = false) (hd : IsPdmLevel d) (hc : isFinite c = true) :
    ∃ w, mac (.word a) d c = .word w ∧ isNaN w = false := by
  obtain ⟨p, hp, hfinite⟩ := fmul_pdm_isFinite hd hc
  simpa [mac, hp] using fadd_isFinite_ne_nan ha hfinite

/-! ### All taps -/

/-- No partial sum of the dot product is a NaN (R80). -/
theorem foldl_mac_pdm {taps : List (Word × Word)} (h : ∀ dc ∈ taps, IsPdmLevel dc.1 ∧ isFinite dc.2 = true) {a : Word}
    (ha : isNaN a = false) :
    ∃ w, taps.foldl (fun acc dc => mac acc dc.1 dc.2) (.word a) = .word w ∧ isNaN w = false := by
  induction taps generalizing a with
  | nil => exact ⟨a, rfl, ha⟩
  | cons dc taps ih =>
    obtain ⟨hd, hc⟩ := h dc List.mem_cons_self
    obtain ⟨w, hw, hnan⟩ := mac_pdm ha hd hc
    rw [List.foldl_cons, hw]
    exact ih (fun x hx => h x (List.mem_cons_of_mem _ hx)) hnan

theorem dot_pdm {ds cs : List Word} (hds : ∀ d ∈ ds, IsPdmLevel d) (hcs : ∀ c ∈ cs, isFinite c = true) :
    ∃ w, dot ds cs = .word w ∧ isNaN w = false :=
  foldl_mac_pdm (fun _ hdc => ⟨hds _ (List.of_mem_zip hdc).1, hcs _ (List.of_mem_zip hdc).2⟩) (by decide)

/-- Elements `0 .. taps-1` of a store all hold values, and each of them is a `P`. -/
def Store.Holds (st : Store) (taps : Nat) (P : Word → Prop) : Prop := ∀ i, i < taps → ∃ w, st.read i = some w ∧ P w

theorem Store.Holds.isSome {st : Store} {taps : Nat} {P : Word → Prop} (h : st.Holds taps P) {i : Nat}
    (hi : i < taps) : (st.read i).isSome := by
  obtain ⟨w, hw, -⟩ := h i hi
  simp [hw]

theorem Store.Holds.of_isSome {st : Store} {taps : Nat} {P : Word → Prop}
    (hsome : ∀ i, i < taps → (st.read i).isSome) (hP : ∀ i w, i < taps → st.read i = some w → P w) :
    st.Holds taps P := fun i hi =>
  have ⟨w, hw⟩ := Option.isSome_iff_exists.mp (hsome i hi)
  ⟨w, hw, hP i w hi hw⟩

theorem Store.Holds.forall_mem {st : Store} {taps : Nat} {P : Word → Prop} (h : st.Holds taps P) {ws : List Word}
    (hws : st.readFrom 0 taps = some ws) : ∀ w ∈ ws, P w := by
  intro w hw
  obtain ⟨hlen, hread⟩ := Store.readFrom_eq_some_iff.mp hws
  obtain ⟨i, hi, rfl⟩ := List.mem_iff_getElem.mp hw
  obtain ⟨v, hv, hP⟩ := h i (hlen ▸ hi)
  have := hread i (hlen ▸ hi)
  rw [Nat.zero_add, hv, List.getElem?_eq_getElem hi] at this
  exact Option.some.inj this ▸ hP

/-- A filter step on a PDM history runs, keeps it a PDM history, and its output can be quantized (R80, R97). -/
theorem firStep_pdm {taps : Nat} {coef delay : Store} {x : Word} (hcoef : coef.Holds taps fun c => isFinite c = true)
    (hdelay : delay.Holds taps IsPdmLevel) (hx : IsPdmLevel x) :
    ∃ d y q, firStep taps coef delay x = some (d, y) ∧ d.Holds taps IsPdmLevel ∧ quantizeResult y = some q := by
  obtain ⟨⟨d, y⟩, hfir⟩ := Option.isSome_iff_exists.mp
    ((firStep_isSome taps coef delay x).mpr ⟨fun i hi => hdelay.isSome (by omega), fun i hi => hcoef.isSome hi⟩)
  have hd : d.Holds taps IsPdmLevel := fun i hi => by
    rw [firStep_read hfir]
    cases i with
    | zero => exact ⟨x, rfl, hx⟩
    | succ i => simpa [hi] using hdelay i (by omega)
  obtain ⟨ds, cs, hds, hcs, hy⟩ := firStep_output hfir
  obtain ⟨w, hw, hnan⟩ := dot_pdm (hd.forall_mem hds) (hcoef.forall_mem hcs)
  have hq : quantizeResult y ≠ none := by
    simp [hy, hw, quantizeResult, quantize_eq_none_iff, hnan]
  obtain ⟨q, hq⟩ := Option.ne_none_iff_exists'.mp hq
  exact ⟨d, y, q, hfir, hd, hq⟩

/-! ### CONV's loop -/

/-- One pass of CONV's loop on a PDM history goes on, and emits a word exactly when the sample is kept (R102). -/
theorem convSample_pdm {taps : Nat} {coef : Store} {factor x : Word} {w : ConvWork}
    (hcoef : coef.Holds taps fun c => isFinite c = true) (hdelay : w.delay.Holds taps IsPdmLevel)
    (hx : IsPdmLevel x) :
    ∃ w', convSample taps coef factor x w = .ok w' ∧ w'.delay.Holds taps IsPdmLevel ∧
      w'.phase = (decStep factor w.phase).2 ∧
      w'.out.length = w.out.length + if (decStep factor w.phase).1 then 1 else 0 := by
  obtain ⟨d, y, q, hfir, hd, hq⟩ := firStep_pdm hcoef hdelay hx
  rcases decStep_cases factor w.phase with ⟨-, hkept⟩ | ⟨-, hdropped⟩
  · exact ⟨⟨d, 0, w.out ++ [sext32 q]⟩, by simp [convSample, hfir, hkept, hq], hd, by simp [hkept], by simp [hkept]⟩
  · exact ⟨⟨d, w.phase + 1, w.out⟩, by simp [convSample, hfir, hdropped], hd, by simp [hdropped], by simp [hdropped]⟩

/-- The samples kept of `n + 1` are the first, if it is the last of its group, and those kept of the other `n`
(R94, R103). -/
theorem kept_succ {phase factor : Nat} (n : Nat) (h : phase < factor) :
    (phase + (n + 1)) / factor =
      (if phase + 1 = factor then 1 else 0) + ((phase + 1) % factor + n) / factor := by
  split
  · next hlast =>
    have hgroup : phase + (n + 1) = n + factor := by omega
    rw [hlast, Nat.mod_self, Nat.zero_add, hgroup, Nat.add_div_right n (by omega), Nat.add_comm]
  · next hmore =>
    rw [Nat.mod_eq_of_lt (by omega), Nat.zero_add]
    congr 1
    omega

/-- CONV's loop on a PDM history completes, and keeps one sample of each `FACTOR` (R102, R103). -/
theorem convSamples_pdm {taps : Nat} {coef : Store} {factor : Word} {xs : List Word} {w : ConvWork}
    (hcoef : coef.Holds taps fun c => isFinite c = true) (hdelay : w.delay.Holds taps IsPdmLevel)
    (hxs : ∀ x ∈ xs, IsPdmLevel x) (hphase : w.phase.toNat < factor.toNat) :
    ∃ w', convSamples taps coef factor xs w = .ok w' ∧
      w'.out.length = w.out.length + (w.phase.toNat + xs.length) / factor.toNat := by
  induction xs generalizing w with
  | nil => exact ⟨w, rfl, by simp [Nat.div_eq_of_lt hphase]⟩
  | cons x xs ih =>
    obtain ⟨w1, hstep, hdelay1, hphase1, hout1⟩ :=
      convSample_pdm (factor := factor) hcoef hdelay (hxs x List.mem_cons_self)
    obtain ⟨hkept, hnext⟩ := decStep_spec hphase
    rw [← hphase1] at hnext
    obtain ⟨w', hloop, hout⟩ := ih hdelay1 (fun y hy => hxs y (List.mem_cons_of_mem _ hy))
      (hnext ▸ Nat.mod_lt _ (by omega))
    refine ⟨w', convSamples_cons_eq_ok_iff.mpr ⟨w1, hstep, hloop⟩, ?_⟩
    rw [hout, hout1, hnext, hkept, List.length_cons, kept_succ xs.length hphase, ← add_assoc]
    simp only [decide_eq_true_eq]

theorem unpackByte_isPdmLevel (b : Byte) : ∀ x ∈ unpackByte b, IsPdmLevel x := by
  intro x hx
  obtain ⟨k, -, rfl⟩ := List.mem_map.mp hx
  exact (unpackBit_eq_or b k).imp_right .inl

/-- Settles O45: CONV's loop on a PDM history completes with the number of samples its phases give. -/
theorem convCompletesOnPdmHistoryWithFiniteCoefficients :
    Obligations.ConvCompletesOnPdmHistoryWithFiniteCoefficients := by
  intro b s hs hinv hfinite hpdm
  have hcoef : s.heldCoef.Holds s.taps fun c => isFinite c = true := .of_isSome hinv.coef_holds hfinite
  have hdelay : s.delay.Holds s.taps IsPdmLevel := .of_isSome (fun i => (hinv.delay_holds i).mpr) hpdm
  obtain ⟨w, hloop, hout⟩ := convSamples_pdm (w := ⟨s.delay, s.phase, []⟩) hcoef hdelay (unpackByte_isPdmLevel b)
    hinv.phase_lt
  refine ⟨w.delay, w.phase, w.out, ?_, by simpa using hout⟩
  simp [exec, execConv, hs, hloop, State.done]

end Sys2Proof.Machine
end

section
/-! PROOFS. What steps and the configuration commands leave in the registers and in `COEF`: the reset values, the
staging of `LEN` and of the coefficients, the configuration frozen in state Ready, `MAXTAPS` (spec/10_state.md R29,
R30, R33, R35; spec/40_config.md R71, R73, R75). -/

namespace Sys2Proof.Machine

/-! ### Reset and CLR (R35) -/

theorem step_of_hardReset {s : State} {rest : List HostEvent} (h : s.pending = .hardReset :: rest) :
    step s = .next s.hardReset := by
  simp [step, h]

/-- Settles O9: a hard reset and CLR both leave a cleared block. -/
theorem resetAndClrLeaveTheResetValues : Obligations.ResetAndClrLeaveTheResetValues :=
  ⟨by simp, fun s _ h => ⟨s.hardReset, step_of_hardReset h, by simp⟩,
    fun s => ⟨s.clearBlock.answer .ok [], rfl, by simp⟩⟩

/-! ### Which coefficients hold a value (R30) -/

/-- Settles O57: `State.heldCoef` is the part of `COEF` below `CPTR`. -/
theorem coefficientsHoldValuesBelowCptrOnly : Obligations.CoefficientsHoldValuesBelowCptrOnly :=
  State.heldCoef_read

/-- Once `CPTR` is 0, no coefficient holds a value, whatever bits `COEF` keeps (R71). -/
theorem State.heldCoef_read_of_cptr_zero {s : State} (h : s.cptr = 0) (j : Nat) : s.heldCoef.read j = none := by
  rw [State.heldCoef_read, if_neg (by simp [h])]

/-- Writing the element at `CPTR` and counting `CPTR` on, without a wrap, adds that element to those that hold a value
and keeps the others (R30, R73). -/
theorem State.heldCoef_read_ldc (s : State) (v : Word) (hwrap : s.cptr.toNat + 1 < 2 ^ 32) (j : Nat) :
    { s with coef := s.coef.write s.cptr.toNat v, cptr := s.cptr + 1 }.heldCoef.read j =
      if j = s.cptr.toNat then some v else s.heldCoef.read j := by
  have hnext : (s.cptr + 1).toNat = s.cptr.toNat + 1 := BitVec.toNat_add_of_lt hwrap
  simp only [State.heldCoef_read, hnext, Store.read_write]
  by_cases hj : j = s.cptr.toNat
  · simp [hj]
  · have hbelow : j < s.cptr.toNat + 1 ↔ j < s.cptr.toNat := by omega
    simp [hj, hbelow]

/-! ### Staging (R71, R73) -/

theorem exec_setlen_of_uninitialized (n : Word) {s : State} (hs : s.state = .uninitialized) :
    exec (.setlen n) s = .next ({ s with len := n, cptr := 0 }.answer .ok []) := by
  simp [exec, execSetlen, hs, State.done]

theorem exec_ldc_of_room (v : Word) {s : State} (hs : s.state = .uninitialized) (hroom : s.cptr.toNat < s.maxTaps) :
    exec (.ldc v) s =
      .next ({ s with coef := s.coef.write s.cptr.toNat v, cptr := s.cptr + 1 }.answer .ok []) := by
  simp [exec, execLdc, hs, not_le.mpr hroom, State.done]

/-- Settles O20: SETLEN passes its state check, and `CPTR` is 0 after it. -/
theorem setlenStagesTheLength : Obligations.SetlenStagesTheLength := fun n _ hs =>
  ⟨_, exec_setlen_of_uninitialized n hs, rfl, State.heldCoef_read_of_cptr_zero rfl⟩

/-- Settles O22: LDC passes its two checks, and its write to `COEF` is a write to the element at `CPTR`. -/
theorem ldcWritesTheNextCoefficient : Obligations.LdcWritesTheNextCoefficient := fun v s hs hroom =>
  ⟨_, s.coef.write s.cptr.toNat v, exec_ldc_of_room v hs hroom, rfl, fun j => Store.read_write s.coef _ j v,
    s.heldCoef_read_ldc v⟩

/-! ### What no step changes -/

/-- What an answered step can do, a command taken apart: nothing, a hard reset, a failure (an illegal word among them),
or a success. -/
theorem step_next_cases {s t : State} (h : step s = .next t) :
    t = s ∨ t = s.hardReset ∨ (∃ e, t = s.answer e []) ∨
      ∃ i u data, Succeeds s i u data ∧ t = u.answer .ok data := by
  rcases step_cases s with hq | hr | he | ⟨i, hi⟩
  · exact .inl (by simpa [hq] using h.symm)
  · exact .inr (.inl (by simpa [hr] using h.symm))
  · exact .inr (.inr (.inl ⟨.eIllegal, by simpa [he] using h.symm⟩))
  · rcases exec_next_cases (hi ▸ h) with ⟨e, -, ht⟩ | ⟨u, data, hu, ht⟩
    · exact .inr (.inr (.inl ⟨e, ht⟩))
    · exact .inr (.inr (.inr ⟨i, u, data, hu, ht⟩))

/-- Only CLR and the commands of state Uninitialized write the configuration, so a success that stays Ready keeps it
(R75). -/
theorem Succeeds.keeps_configuration {s u : State} {i : Instr} {data : List Word} (h : Succeeds s i u data)
    (hs : s.state = .ready) (hu : u.state = .ready) :
    u.len = s.len ∧ u.factor = s.factor ∧ u.cptr = s.cptr ∧ u.coef = s.coef := by
  cases h with
  | clr => simp at hu
  | setlen _ hun | setfac _ hun | ldc _ hun | init hun => simp [hs] at hun
  | apply | unpk | dsync | dec | qnt | conv | rds | rdc | rdd => exact ⟨rfl, rfl, rfl, rfl⟩

/-- Settles O17, by what an answered step can do: a hard reset leaves state Ready, a success keeps the configuration. -/
theorem readyConfigurationIsFrozen : Obligations.ReadyConfigurationIsFrozen := by
  intro s t hstep hs ht
  rcases step_next_cases hstep with rfl | rfl | ⟨e, rfl⟩ | ⟨i, u, data, hu, rfl⟩
  · exact ⟨rfl, rfl, rfl, rfl⟩
  · simp at ht
  · exact ⟨rfl, rfl, rfl, rfl⟩
  · exact hu.keeps_configuration hs ht

/-- No command writes `MAXTAPS`, CLR among them (R29). -/
theorem Succeeds.maxTaps_eq {s u : State} {i : Instr} {data : List Word} (h : Succeeds s i u data) :
    u.maxTaps = s.maxTaps := by
  cases h <;> rfl

theorem step_maxTaps {s t : State} (h : step s = .next t) : t.maxTaps = s.maxTaps := by
  rcases step_next_cases h with rfl | rfl | ⟨e, rfl⟩ | ⟨i, u, data, hu, rfl⟩
  · rfl
  · rfl
  · rfl
  · exact hu.maxTaps_eq

/-- RDS answers the register of its number (R107). -/
theorem exec_rds_of_statusRegister {s : State} {r w : Word} (h : s.statusRegister (idx r) = some w) :
    exec (.rds r) s = .next (s.answer .ok [w]) := by
  simp [exec, execRds, h, State.done]

/-- Settles O18: no step writes `MAXTAPS`, and register 5 is `MAXTAPS` as a 32-bit word. -/
theorem maxTapsIsAReadOnlyConstant : Obligations.MaxTapsIsAReadOnlyConstant :=
  ⟨fun _ _ => step_maxTaps, fun s => ⟨BitVec.ofNat 32 s.maxTaps, exec_rds_of_statusRegister rfl, fun hlt => by
    rw [BitVec.toNat_ofNat, Nat.mod_eq_of_lt hlt]⟩⟩

end Sys2Proof.Machine
end

section
/-! PROOFS. What a command presented to the block can touch: a legal word runs its command, an answer is written to the
host's side only, and UNPK and QNT work on no state (spec/20_memory.md R43, R45; spec/30_encoding.md R52, R54). -/

namespace Sys2Proof.Machine

/-! ### One command (R45, R54) -/

/-- Settles O5: of the cases of a step, a presented word that decodes selects execution. -/
theorem stepRunsTheDecodedCommand : Obligations.StepRunsTheDecodedCommand := by
  intro s w rest i hpending hdecode
  simp [step, hpending, hdecode]

/-- Settles O6: what an answer writes, said once by `State.answer_eq`. -/
theorem answeringTouchesOnlyTheHostSide : Obligations.AnsweringTouchesOnlyTheHostSide := State.answer_eq

/-! ### UNPK and QNT (R89, R98) -/

theorem Succeeds.eq_of_unpk {s u : State} {b : Byte} {data : List Word} (h : Succeeds s (.unpk b) u data) : u = s := by
  cases h; rfl

theorem Succeeds.eq_of_qnt {s u : State} {x : Word} {data : List Word} (h : Succeeds s (.qnt x) u data) : u = s := by
  cases h; rfl

/-- Settles O53: a failed command changes nothing, and the work of UNPK and of QNT leaves the state as it is. -/
theorem unpkAndQntTouchNoState : Obligations.UnpkAndQntTouchNoState := by
  intro i s t hi hexec
  rcases exec_next_cases hexec with ⟨e, -, rfl⟩ | ⟨u, data, hu, rfl⟩
  · exact ⟨⟨e, []⟩, rfl⟩
  · have hsame : u = s := by
      rcases hi with ⟨b, rfl⟩ | ⟨x, rfl⟩
      · exact hu.eq_of_unpk
      · exact hu.eq_of_qnt
    exact ⟨⟨.ok, data⟩, by rw [hsame]⟩

end Sys2Proof.Machine
end

section
/-! PROOFS. Encoding and decoding of command words against the opcode map: the two fields of a word, the bits a row
fixes, what the decoder answers for each opcode (spec/30_encoding.md R50, R51, R54 to R58, R62). -/

namespace Sys2Proof

/-! ### The two fields of a command word (R50) -/

@[simp] theorem opcodeField_commandWord (op : Byte) (a : Word) : opcodeField (commandWord op a) = op :=
  BitVec.extractLsb'_append_eq_left

@[simp] theorem operandField_commandWord (op : Byte) (a : Word) : operandField (commandWord op a) = a :=
  BitVec.extractLsb'_append_eq_right

theorem commandWord_fields (w : CommandWord) : commandWord (opcodeField w) (operandField w) = w :=
  BitVec.extractLsb'_append_extractLsb'

theorem eq_commandWord_iff {w : CommandWord} {op : Byte} {a : Word} :
    w = commandWord op a ↔ opcodeField w = op ∧ operandField w = a := by
  constructor
  · rintro rfl
    exact ⟨opcodeField_commandWord op a, operandField_commandWord op a⟩
  · rintro ⟨rfl, rfl⟩
    exact (commandWord_fields w).symm

/-! ### The operand word of each kind (R51, R56) -/

/-- The operand bits that a kind requires to be zero (R56), as a mask. -/
def OperandKind.mustBeZero : OperandKind → Word
  | .none => 0xFFFFFFFF
  | .u8 => 0xFFFFFF00
  | .s32 | .f32 | .idx => 0

/-- A word is its upper 24 bits above its low byte. -/
theorem highBits_append_lowByte (a : Word) : (a.extractLsb' 8 24 ++ a.extractLsb' 0 8 : Word) = a :=
  BitVec.extractLsb'_append_extractLsb'

theorem and_highBits_eq_zero_iff (a : Word) : a &&& 0xFFFFFF00 = 0 ↔ a.extractLsb' 8 24 = 0 := by
  have hand : a &&& 0xFFFFFF00 = (a.extractLsb' 8 24 ++ 0#8 : Word) := by
    conv_lhs => rw [← highBits_append_lowByte a, show (0xFFFFFF00 : Word) = BitVec.allOnes 24 ++ 0#8 from rfl]
    exact BitVec.and_append.trans (congrArg₂ _ BitVec.and_allOnes BitVec.and_zero)
  rw [hand]
  constructor
  · intro h
    have hhigh := congrArg (BitVec.extractLsb' 8 24) h
    rwa [BitVec.extractLsb'_append_eq_left] at hhigh
  · intro h
    rw [h]
    rfl

theorem OperandKind.admits_iff (k : OperandKind) (a : Word) : k.admits a = true ↔ a &&& k.mustBeZero = 0 := by
  cases k with
  | none =>
    rw [show OperandKind.none.mustBeZero = BitVec.allOnes 32 from rfl, BitVec.and_allOnes]
    exact beq_iff_eq
  | u8 => exact beq_iff_eq.trans (and_highBits_eq_zero_iff a).symm
  | s32 | f32 | idx => exact iff_of_true rfl BitVec.and_zero

theorem setWidth_lowByte {a : Word} (h : a.extractLsb' 8 24 = 0) : (a.extractLsb' 0 8).setWidth 32 = a := by
  conv_rhs => rw [← highBits_append_lowByte a, h]
  exact BitVec.setWidth_eq_append (by decide)

theorem lowByte_setWidth (b : Byte) : (b.setWidth 32).extractLsb' 0 8 = b := by
  ext i hi
  simp [hi, Nat.lt_of_lt_of_le hi]

/-! ### A command as opcode and operand word -/

/-- The opcode byte of a command (R57). -/
def Instr.opcode : Instr → Byte
  | .clr => 0x01
  | .setlen _ => 0x02
  | .setfac _ => 0x03
  | .ldc _ => 0x04
  | .init => 0x05
  | .apply _ => 0x10
  | .unpk _ => 0x20
  | .dsync => 0x30
  | .dec _ => 0x31
  | .qnt _ => 0x32
  | .conv _ => 0x40
  | .rds _ => 0x50
  | .rdc _ => 0x51
  | .rdd _ => 0x52

/-- The command of the same row that carries the operand word `a`, as R51 reads it. -/
def Instr.withOperand (i : Instr) (a : Word) : Instr :=
  match i with
  | .clr => .clr
  | .setlen _ => .setlen a
  | .setfac _ => .setfac a
  | .ldc _ => .ldc a
  | .init => .init
  | .apply _ => .apply a
  | .unpk _ => .unpk (a.extractLsb' 0 8)
  | .dsync => .dsync
  | .dec _ => .dec a
  | .qnt _ => .qnt a
  | .conv _ => .conv (a.extractLsb' 0 8)
  | .rds _ => .rds a
  | .rdc _ => .rdc a
  | .rdd _ => .rdd a

theorem encode_eq (i : Instr) : encode i = commandWord i.opcode i.operandWord := by
  cases i <;> rfl

/-- Every term of `Instr` is well formed: its types carry the checks of R51. -/
theorem Instr.admits_operandWord (i : Instr) : i.row.kind.admits i.operandWord = true := by
  cases i with
  | unpk b | conv b => exact admits_byte b
  | _ => rfl

@[simp] theorem Instr.row_withOperand (i : Instr) (a : Word) : (i.withOperand a).row = i.row := by
  cases i <;> rfl

@[simp] theorem Instr.opcode_withOperand (i : Instr) (a : Word) : (i.withOperand a).opcode = i.opcode := by
  cases i <;> rfl

@[simp] theorem Instr.withOperand_operandWord (i : Instr) : i.withOperand i.operandWord = i := by
  cases i with
  | unpk b => exact congrArg Instr.unpk (lowByte_setWidth b)
  | conv b => exact congrArg Instr.conv (lowByte_setWidth b)
  | _ => rfl

theorem Instr.operandWord_withOperand {i : Instr} {a : Word} (h : i.row.kind.admits a = true) :
    (i.withOperand a).operandWord = a := by
  cases i with
  | clr | init | dsync => exact (beq_iff_eq.mp h).symm
  | unpk _ | conv _ => exact setWidth_lowByte (beq_iff_eq.mp h)
  | _ => rfl

/-! ### The rows of the opcode map (R57) -/

theorem Instr.row_pattern (i : Instr) : i.row.pattern = commandWord i.opcode 0 := by
  cases i <;> simp only [Instr.row, Instr.opcode] <;> decide

/-- The mask of a row: the whole opcode byte, and the operand bits its kind fixes to zero. -/
theorem Instr.row_mask (i : Instr) : i.row.mask = commandWord 0xFF i.row.kind.mustBeZero := by
  cases i <;> simp only [Instr.row, OperandKind.mustBeZero] <;> decide

/-- A word selects a command's row when it has the row's opcode and an operand word the row's kind admits. -/
theorem Instr.row_selects_iff (i : Instr) (w : CommandWord) :
    i.row.selects w = true ↔ opcodeField w = i.opcode ∧ i.row.kind.admits (operandField w) = true := by
  have hand : w &&& i.row.mask = commandWord (opcodeField w) (operandField w &&& i.row.kind.mustBeZero) := by
    conv_lhs => rw [← commandWord_fields w, i.row_mask]
    exact (commandWord_and _ _ _ _).trans (congrArg (commandWord · _) BitVec.and_allOnes)
  rw [OpcodeRow.selects, beq_iff_eq, hand, i.row_pattern, eq_commandWord_iff, OperandKind.admits_iff]
  simp

theorem mem_opcodeTable_iff (r : OpcodeRow) : r ∈ opcodeTable ↔ ∃ i : Instr, r = i.row := by
  constructor
  · intro h
    obtain ⟨i, -, hi⟩ := List.mem_map.mp h
    exact ⟨i, hi.symm⟩
  · rintro ⟨i, rfl⟩
    cases i <;> simp [opcodeTable, Instr.row]

theorem legalWord_iff (w : CommandWord) : legalWord w = true ↔ ∃ i : Instr, i.row.selects w = true := by
  rw [legalWord, List.any_eq_true]
  constructor
  · rintro ⟨r, hr, hw⟩
    obtain ⟨i, rfl⟩ := (mem_opcodeTable_iff r).mp hr
    exact ⟨i, hw⟩
  · rintro ⟨i, hw⟩
    exact ⟨i.row, (mem_opcodeTable_iff _).mpr ⟨i, rfl⟩, hw⟩

/-! ### What the decoder answers (R54) -/

/-- The fourteen opcode bytes of R57. -/
def assignedOpcodes : List Nat :=
  [0x01, 0x02, 0x03, 0x04, 0x05, 0x10, 0x20, 0x30, 0x31, 0x32, 0x40, 0x50, 0x51, 0x52]

theorem mem_assignedOpcodes_iff (op : Byte) : op.toNat ∈ assignedOpcodes ↔ ∃ i : Instr, op = i.opcode := by
  constructor
  · intro h
    have hnat : ∃ i : Instr, op.toNat = i.opcode.toNat := by
      simp only [assignedOpcodes, List.mem_cons, List.not_mem_nil, or_false] at h
      rcases h with h | h | h | h | h | h | h | h | h | h | h | h | h | h
      exacts [⟨.clr, h⟩, ⟨.setlen 0, h⟩, ⟨.setfac 0, h⟩, ⟨.ldc 0, h⟩, ⟨.init, h⟩, ⟨.apply 0, h⟩, ⟨.unpk 0, h⟩,
        ⟨.dsync, h⟩, ⟨.dec 0, h⟩, ⟨.qnt 0, h⟩, ⟨.conv 0, h⟩, ⟨.rds 0, h⟩, ⟨.rdc 0, h⟩, ⟨.rdd 0, h⟩]
    exact hnat.imp fun _ => BitVec.eq_of_toNat_eq
  · rintro ⟨i, rfl⟩
    cases i <;> simp [Instr.opcode, assignedOpcodes]

/-- R54 step 1: an opcode byte outside the map is refused. -/
theorem decodeFields_of_unassigned {op : Byte} (h : op.toNat ∉ assignedOpcodes) (a : Word) :
    decodeFields op a = .error (.unknownOpcode op) := by
  unfold decodeFields
  split
  case h_15 => rfl
  all_goals
    next hop =>
      rw [hop] at h
      exact absurd (by decide) h

/-- R54 step 2: with the opcode of a row, the operand bits that must be zero decide, and the command carries the
operand word. -/
theorem decodeFields_opcode (i : Instr) (a : Word) : decodeFields i.opcode a =
    if i.row.kind.admits a then .ok (i.withOperand a) else .error (.reservedOperandBits i.opcode a) := by
  cases i with
  | clr | init | dsync =>
    simp [decodeFields, decodeNone, Instr.opcode, Instr.row, OperandKind.admits, Instr.withOperand]
  | unpk _ | conv _ =>
    simp [decodeFields, decodeByte, Instr.opcode, Instr.row, OperandKind.admits, Instr.withOperand]
  | _ => simp [decodeFields, Instr.opcode, Instr.row, OperandKind.admits, Instr.withOperand]

/-- The decoder reads a command from the two fields exactly when they are its opcode and its operand word. -/
theorem decodeFields_eq_ok_iff {op : Byte} {a : Word} {i : Instr} :
    decodeFields op a = .ok i ↔ op = i.opcode ∧ a = i.operandWord := by
  constructor
  · intro h
    by_cases hop : op.toNat ∈ assignedOpcodes
    · obtain ⟨j, rfl⟩ := (mem_assignedOpcodes_iff op).mp hop
      rw [decodeFields_opcode] at h
      split at h
      · next hadmits =>
        obtain rfl := Except.ok.inj h
        exact ⟨(j.opcode_withOperand a).symm, (Instr.operandWord_withOperand hadmits).symm⟩
      · cases h
    · rw [decodeFields_of_unassigned hop] at h
      cases h
  · rintro ⟨rfl, rfl⟩
    rw [decodeFields_opcode, if_pos i.admits_operandWord, i.withOperand_operandWord]

theorem decode_eq_ok_iff {w : CommandWord} {i : Instr} : decode w = .ok i ↔ w = encode i := by
  rw [encode_eq, eq_commandWord_iff]
  exact decodeFields_eq_ok_iff

/-- Settles O1: both sides say that the fields of the word are the command's opcode and operand word. -/
theorem decodeYieldsExactlyTheEncodedCommand : Obligations.DecodeYieldsExactlyTheEncodedCommand :=
  fun _ _ => decode_eq_ok_iff

/-- Settles O4: each of the words is the encoding of its command. -/
theorem wordsOfEachFamilyDecode : Obligations.WordsOfEachFamilyDecode := by
  refine ⟨?_, ?_, ?_, ?_, ?_, ?_, ?_⟩
  all_goals exact decode_eq_ok_iff.mpr rfl

/-! ### Decoder and opcode map (R54, R57) -/

theorem decode_of_selects {w : CommandWord} {i : Instr} (h : i.row.selects w = true) :
    decode w = .ok (i.withOperand (operandField w)) := by
  obtain ⟨hop, hadmits⟩ := (i.row_selects_iff w).mp h
  rw [decode, hop, decodeFields_opcode, if_pos hadmits]

theorem selects_of_decode {w : CommandWord} {i : Instr} (h : decode w = .ok i) : i.row.selects w = true := by
  obtain ⟨hop, hoperand⟩ := decodeFields_eq_ok_iff.mp h
  exact (i.row_selects_iff w).mpr ⟨hop, hoperand ▸ i.admits_operandWord⟩

theorem exists_decode_iff_legalWord (w : CommandWord) : (∃ i, decode w = .ok i) ↔ legalWord w = true := by
  rw [legalWord_iff]
  constructor
  · rintro ⟨i, h⟩
    exact ⟨i, selects_of_decode h⟩
  · rintro ⟨i, h⟩
    exact ⟨_, decode_of_selects h⟩

/-- Settles O2: a row that the word selects is the row of the command that the word decodes to. -/
theorem decodeAcceptsExactlyTheOpcodeMap : Obligations.DecodeAcceptsExactlyTheOpcodeMap := by
  refine fun w => ⟨exists_decode_iff_legalWord w, fun i hi => ⟨selects_of_decode hi, fun r hr hsel => ?_⟩⟩
  obtain ⟨j, rfl⟩ := (mem_opcodeTable_iff r).mp hr
  have hsame : j.withOperand (operandField w) = i := Except.ok.inj ((decode_of_selects hsel).symm.trans hi)
  rw [← hsame, Instr.row_withOperand]

/-! ### Illegal words (R58) -/

theorem decode_eq_error_of_illegal {w : CommandWord} (h : legalWord w = false) : ∃ e, decode w = .error e := by
  cases hd : decode w with
  | error e => exact ⟨e, rfl⟩
  | ok i => simp [(exists_decode_iff_legalWord w).mp ⟨i, hd⟩] at h

theorem legalWord_eq_false_of_unassigned {w : CommandWord} (h : (opcodeField w).toNat ∉ assignedOpcodes) :
    legalWord w = false := by
  rw [← Bool.not_eq_true, ← exists_decode_iff_legalWord, decode, decodeFields_of_unassigned h]
  simp

theorem legalWord_eq_admits_of_opcode {w : CommandWord} {i : Instr} (h : opcodeField w = i.opcode) :
    legalWord w = i.row.kind.admits (operandField w) := by
  rw [Bool.eq_iff_iff, ← exists_decode_iff_legalWord, decode, h, decodeFields_opcode]
  split <;> simp [*]

theorem operandField_highBits (w : CommandWord) : (operandField w).extractLsb' 8 24 = w.extractLsb' 8 24 := by
  ext i hi
  simp [operandField]

/-- The illegal words, by the opcode byte: unassigned, of a row without an operand, of a row with a byte. -/
theorem legalWord_eq_false_iff (w : CommandWord) : legalWord w = false ↔
    (opcodeField w).toNat ∉ assignedOpcodes ∨
      (opcodeField w).toNat ∈ [0x01, 0x05, 0x30] ∧ operandField w ≠ 0 ∨
      (opcodeField w).toNat ∈ [0x20, 0x40] ∧ (operandField w).extractLsb' 8 24 ≠ 0 := by
  by_cases hop : (opcodeField w).toNat ∈ assignedOpcodes
  · obtain ⟨i, hi⟩ := (mem_assignedOpcodes_iff _).mp hop
    rw [legalWord_eq_admits_of_opcode hi, hi]
    cases i <;> simp [Instr.row, Instr.opcode, OperandKind.admits, assignedOpcodes]
  · exact iff_of_true (legalWord_eq_false_of_unassigned hop) (.inl hop)

end Sys2Proof
end

section
/-! PROOFS. What a response carries: the answer to an illegal word, the number of data words of each command, the header
byte (spec/30_encoding.md R52, R58; spec/60_exceptions.md R112). -/

namespace Sys2Proof.Machine

/-- Settles O3: the decoder refuses an illegal word, and the step answers `E_ILLEGAL` whatever the reason. -/
theorem illegalWordIsAnsweredAndChangesNothing : Obligations.IllegalWordIsAnsweredAndChangesNothing := by
  refine fun w => ⟨operandField_highBits w ▸ legalWord_eq_false_iff w, fun s rest hillegal hpending => ?_⟩
  obtain ⟨e, he⟩ := decode_eq_error_of_illegal hillegal
  simp [step, hpending, he, State.fail, State.answer_eq]

/-- Settles O14: an `OK` response is that of a success, and each command's success says what it emits. -/
theorem successfulCommandsEmitTheirWordCount : Obligations.SuccessfulCommandsEmitTheirWordCount := by
  intro i s t data hexec hlast
  rcases exec_next_cases hexec with ⟨e, he, rfl⟩ | ⟨u, out, hu, rfl⟩
  · simp [he] at hlast
  · obtain rfl : out = data := by simpa using hlast
    have hmax := hu.length_le
    cases hu with
    | clr | setlen | setfac | ldc | init | dsync => rfl
    | apply | qnt | rds | rdc | rdd => rfl
    | unpk b => exact unpackByte_length b
    | dec x =>
      show List.length _ ≤ 1
      split <;> simp
    | conv => exact hmax

/-! ### The header byte (R52, R112) -/

theorem Status.code_le (e : Status) : e.code.toNat ≤ 7 := by
  cases e <;> decide

theorem Response.header_toNat {r : Response} (h : r.data.length < 16) :
    r.header.toNat = 16 * r.status.code.toNat + r.data.length := by
  rw [Response.header, BitVec.toNat_append, ← Nat.shiftLeft_add_eq_or_of_lt (BitVec.isLt _), Nat.shiftLeft_eq,
    BitVec.toNat_ofNat, Nat.mod_eq_of_lt h]
  omega

/-- Settles O55: the status and the count are the two hexadecimal digits of the header byte. -/
theorem headerByteCarriesStatusAndCount : Obligations.HeaderByteCarriesStatusAndCount := by
  refine ⟨fun r hr => ?_, rfl, rfl, rfl, rfl, rfl, rfl, rfl, rfl, Status.code_le⟩
  rw [Response.header_toNat (by omega)]
  omega

end Sys2Proof.Machine
end

section
/-! PROOFS. The configuration commands and the life cycle: what CLR, SETFAC and INIT do, INIT's checks in their order,
and which commands change `STATE` (spec/40_config.md R70, R72, R74, R76). -/

namespace Sys2Proof.Machine

/-! ### CLR and SETFAC (R70, R72) -/

/-- Settles O19: CLR has no check, and its work is to clear the block. -/
theorem clrTearsTheFilterDown : Obligations.ClrTearsTheFilterDown := fun _ => rfl

theorem exec_setfac_of_uninitialized (n : Word) {s : State} (hs : s.state = .uninitialized) :
    exec (.setfac n) s = .next ({ s with factor := n }.answer .ok []) := by
  simp [exec, execSetfac, hs, State.done]

/-- Settles O21: SETFAC passes its only check, that of the state. -/
theorem setfacStagesTheFactor : Obligations.SetfacStagesTheFactor := fun n _ => exec_setfac_of_uninitialized n

/-! ### INIT (R74) -/

theorem exec_init_of_ready {s : State} (hs : s.state = .ready) : exec .init s = .next (s.answer .eState []) := by
  simp [exec, execInit, hs, State.fail]

/-- INIT past its state check: the four checks of the staged values in their order, then the zero fill (R74). -/
theorem exec_init_of_uninitialized {s : State} (hs : s.state = .uninitialized) :
    exec .init s =
      if s32 s.len < 1 then .next (s.answer .eConfig [])
      else if s32 s.factor < 1 then .next (s.answer .eConfig [])
      else if (s.maxTaps : Int) < s32 s.len then .next (s.answer .eResource [])
      else if (s.cptr.toNat : Int) ≠ s32 s.len then .next (s.answer .eArg [])
      else .next ({ s with delay := s.delay.zeroFill s.taps, phase := 0, state := .ready }.answer .ok []) := by
  simp only [exec, execInit, hs, ne_eq, not_true_eq_false, if_false, State.fail, State.done]

/-- Settles O24: a check is reached when those before it pass, and its failure is the answer. -/
theorem initChecksInOrder : Obligations.InitChecksInOrder := by
  refine fun s => ⟨exec_init_of_ready, fun hs hlen => ?_, fun hs hlen hfactor => ?_,
    fun hs hlen hfactor hfits => ?_, fun hs hlen hfactor hfits hcptr => ?_⟩ <;>
    rw [exec_init_of_uninitialized hs]
  · rw [if_pos hlen]
  · rw [if_neg (not_lt.mpr hlen), if_pos hfactor]
  · rw [if_neg (not_lt.mpr hlen), if_neg (not_lt.mpr hfactor), if_pos hfits]
  · rw [if_neg (not_lt.mpr hlen), if_neg (not_lt.mpr hfactor), if_neg (not_lt.mpr hfits), if_pos hcptr]

/-- The taps are the indices below `LEN`, read as signed (R25). -/
theorem State.lt_taps_iff (s : State) (j : Nat) : j < s.taps ↔ (j : Int) < s32 s.len := Int.lt_toNat

/-- Settles O23: past its five checks INIT zero-fills the taps, which are the indices below `LEN`. -/
theorem initZeroFillsAndMakesReady : Obligations.InitZeroFillsAndMakesReady := by
  refine fun s hs hlen hfactor hfits hcptr => ⟨s.delay.zeroFill s.taps, ?_, fun j => ?_⟩
  · rw [exec_init_of_uninitialized hs, if_neg (not_lt.mpr hlen), if_neg (not_lt.mpr hfactor),
      if_neg (not_lt.mpr hfits), if_neg (not_not.mpr hcptr)]
  · simp only [Store.read_zeroFill, State.lt_taps_iff, f32PlusZero]

/-! ### What changes `STATE` (R76) -/

/-- What an answered step can do to `STATE`: keep it, unless the host applied a hard reset or presented the word of a
command that succeeds. -/
theorem step_state_cases {s t : State} (h : step s = .next t) :
    t.state = s.state ∨
      s.pending.head? = some .hardReset ∧ t = s.hardReset ∨
      ∃ i u data, s.pending.head? = some (.command (encode i)) ∧ Succeeds s i u data ∧ t = u.answer .ok data := by
  unfold step at h
  split at h
  · cases h
    exact .inl rfl
  · next hpending =>
    cases h
    exact .inr (.inl ⟨by simp [hpending], rfl⟩)
  · next w _ hpending =>
    split at h
    · cases h
      exact .inl rfl
    · next i hdecode =>
      rcases exec_next_cases h with ⟨e, -, rfl⟩ | ⟨u, data, hu, rfl⟩
      · exact .inl rfl
      · exact .inr (.inr ⟨i, u, data, by simp [hpending, decode_eq_ok_iff.mp hdecode], hu, rfl⟩)

/-- INIT is the only command whose success makes the block Ready. -/
theorem Succeeds.eq_init {s u : State} {i : Instr} {data : List Word} (h : Succeeds s i u data)
    (hs : s.state = .uninitialized) (hu : u.state = .ready) : i = .init := by
  cases h with
  | init => rfl
  | clr => simp at hu
  | setlen | setfac | ldc | unpk | qnt | rds | rdc => simp [hs] at hu
  | apply _ _ _ hready | dsync hready | dec _ hready | conv _ hready | rdd _ hready => simp [hs] at hready

/-- CLR is the only command whose success leaves state Ready. -/
theorem Succeeds.eq_clr {s u : State} {i : Instr} {data : List Word} (h : Succeeds s i u data)
    (hs : s.state = .ready) (hu : u.state = .uninitialized) : i = .clr := by
  cases h with
  | clr => rfl
  | setlen _ hun | setfac _ hun | ldc _ hun | init hun => simp [hs] at hun
  | apply | unpk | dsync | dec | qnt | conv | rds | rdc | rdd => simp [hs] at hu

/-- Settles O16: only a hard reset and a successful command can change `STATE`, and of the commands only INIT and CLR
do, each in one direction. -/
theorem lifeStateChangesOnlyByInitClrAndReset : Obligations.LifeStateChangesOnlyByInitClrAndReset := by
  intro s t hstep
  rcases step_state_cases hstep with hsame | ⟨hhead, rfl⟩ | ⟨i, u, data, hhead, hu, rfl⟩
  · exact ⟨fun hs ht => by simp [hsame, hs] at ht, fun hs ht => by simp [hsame, hs] at ht⟩
  · exact ⟨fun _ ht => by simp at ht, fun _ _ => .inr hhead⟩
  · refine ⟨fun hs ht => ?_, fun hs ht => ?_⟩
    · obtain rfl := hu.eq_init hs ht
      exact ⟨hhead, u.answer_lastStatus .ok data⟩
    · obtain rfl := hu.eq_clr hs ht
      exact .inl hhead

end Sys2Proof.Machine
end

section
/-! PROOFS. The filter as a convolution: the delay line and the outputs as formulas over the samples fed so far
(spec/41_fir.md R80, R82, R83). -/

namespace Sys2Proof.Machine

/-! ### The delay line as a history of samples -/

/-- The elements of a delay line of `taps` elements that held `old`, after the samples `xs`, earliest first: the most
recent sample first, then the old elements, as far as the line is long (R31, R80). -/
def lineAfter (taps : Nat) (old xs : List Word) : List Word := (xs.reverse ++ old).take taps

theorem lineAfter_snoc (taps : Nat) (old xs : List Word) (x : Word) :
    lineAfter taps old (xs ++ [x]) = (x :: (xs.reverse ++ old)).take taps := by
  simp [lineAfter]

theorem lineAfter_getElem? {taps i : Nat} (old xs : List Word) (hi : i < taps) :
    (lineAfter taps old xs)[i]? = if i < xs.length then xs[xs.length - 1 - i]? else old[i - xs.length]? := by
  simp only [lineAfter, List.getElem?_take, if_pos hi, List.getElem?_append, List.length_reverse]
  split
  · next hrecent => rw [List.getElem?_reverse hrecent]
  · rfl

/-- `d` is what a delay line `delay` of `taps` elements, holding `old`, has become after the samples `xs`; the elements
that are no part of the line are as before (R31, R80). -/
structure DelayAfter (taps : Nat) (delay : Store) (old xs : List Word) (d : Store) : Prop where
  line : d.readFrom 0 taps = some (lineAfter taps old xs)
  frame : ∀ j, taps ≤ j → d.read j = delay.read j

theorem DelayAfter.start {taps : Nat} {delay : Store} {old : List Word} (h : delay.readFrom 0 taps = some old) :
    DelayAfter taps delay old [] delay where
  line := by
    have hlen := (Store.readFrom_eq_some_iff.mp h).1
    simpa [lineAfter, List.take_of_length_le hlen.le] using h
  frame _ _ := rfl

theorem DelayAfter.read_line {taps : Nat} {delay d : Store} {old xs : List Word} (h : DelayAfter taps delay old xs d)
    {j : Nat} (hj : j < taps) :
    d.read j = if j < xs.length then xs[xs.length - 1 - j]? else old[j - xs.length]? := by
  have hread := (Store.readFrom_eq_some_iff.mp h.line).2 j hj
  rw [Nat.zero_add] at hread
  rw [hread, lineAfter_getElem? old xs hj]

/-- One more sample: the filter step puts it in front of the history and answers the dot product of the new line with
the coefficients (R80). -/
theorem DelayAfter.firStep {taps : Nat} {coef delay d : Store} {old xs cs : List Word} (htaps : 1 ≤ taps)
    (hcs : coef.readFrom 0 taps = some cs) (h : DelayAfter taps delay old xs d) (x : Word) :
    ∃ d', firStep taps coef d x = some (d', dot (lineAfter taps old (xs ++ [x])) cs) ∧
      DelayAfter taps delay old (xs ++ [x]) d' := by
  obtain ⟨hlen, hread⟩ := Store.readFrom_eq_some_iff.mp h.line
  have hdelay := (Store.readFrom_isSome d 0 taps).mp (by simp [h.line])
  have hcoef := (Store.readFrom_isSome coef 0 taps).mp (by simp [hcs])
  simp only [Nat.zero_add] at hread hdelay hcoef
  obtain ⟨⟨d', y⟩, hfir⟩ := Option.isSome_iff_exists.mp
    ((firStep_isSome taps coef d x).mpr ⟨fun i hi => hdelay i (by omega), hcoef⟩)
  have hline : d'.readFrom 0 taps = some (lineAfter taps old (xs ++ [x])) := by
    refine Store.readFrom_eq_some_iff.mpr ⟨?_, fun j hj => ?_⟩
    · simp only [lineAfter, List.length_take, List.length_append, List.length_reverse] at hlen ⊢
      omega
    · rw [lineAfter_snoc, List.getElem?_take_of_lt hj, firStep_read hfir]
      cases j with
      | zero => simp
      | succ j => simpa [hj, lineAfter, List.getElem?_take_of_lt (Nat.lt_of_succ_lt hj)] using hread j (by omega)
  obtain ⟨ds, cs', hds, hcs', rfl⟩ := firStep_output hfir
  obtain rfl : ds = lineAfter taps old (xs ++ [x]) := Option.some.inj (hds.symm.trans hline)
  obtain rfl : cs' = cs := Option.some.inj (hcs'.symm.trans hcs)
  refine ⟨d', hfir, hline, fun j hj => ?_⟩
  rw [firStep_read hfir, if_neg (by omega), if_neg (by omega), h.frame j hj]

/-! ### Many samples (R82) -/

/-- Samples fed to the filter: each output is the dot product of the line that its sample has made (R82, R83). -/
theorem DelayAfter.firRun {taps : Nat} {coef delay d : Store} {old done cs : List Word} (htaps : 1 ≤ taps)
    (hcs : coef.readFrom 0 taps = some cs) (h : DelayAfter taps delay old done d) (xs : List Word) :
    ∃ d' ys, firRun taps coef xs d = some (d', ys) ∧ DelayAfter taps delay old (done ++ xs) d' ∧
      ys.length = xs.length ∧
      ∀ n, n < xs.length → ys[n]? = some (dot (lineAfter taps old (done ++ xs.take (n + 1))) cs) := by
  induction xs generalizing d done with
  | nil => exact ⟨d, [], rfl, by simpa using h, rfl, by simp⟩
  | cons x xs ih =>
    obtain ⟨d1, hfir, h1⟩ := h.firStep htaps hcs x
    obtain ⟨d', ys, hrun, h', hlen, hout⟩ := ih h1
    refine ⟨d', dot (lineAfter taps old (done ++ [x])) cs :: ys, by simp [Machine.firRun, hfir, hrun],
      by simpa using h', by simp [hlen], fun n hn => ?_⟩
    cases n with
    | zero => simp
    | succ n => simpa using hout n (by simpa using hn)

/-- The samples fed to a freshly initialised filter, whose line holds zeros (R74, R83). -/
theorem firRun_of_zeroFill {taps : Nat} {coef : Store} {cs : List Word} (htaps : 1 ≤ taps)
    (hcs : coef.readFrom 0 taps = some cs) (xs : List Word) :
    ∃ d ys, firRun taps coef xs (Store.zeroFill [] taps) = some (d, ys) ∧
      DelayAfter taps (Store.zeroFill [] taps) (List.replicate taps f32PlusZero) xs d ∧ ys.length = xs.length ∧
      ∀ n, n < xs.length →
        ys[n]? = some (dot (lineAfter taps (List.replicate taps f32PlusZero) (xs.take (n + 1))) cs) := by
  have hzeros : (Store.zeroFill [] taps).readFrom 0 taps = some (List.replicate taps f32PlusZero) :=
    Store.readFrom_eq_some_iff.mpr ⟨by simp, fun j hj => by simp [Store.read_zeroFill, hj]⟩
  exact (DelayAfter.start hzeros).firRun htaps hcs xs

/-- After samples `x_0 .. x_n` into a zero-filled line, element `i` is `x_(n-i)`, and `+0.0` before the first
(R83). -/
theorem lineAfter_zeros {taps n : Nat} {xs : List Word} (hn : n < xs.length) :
    lineAfter taps (List.replicate taps f32PlusZero) (xs.take (n + 1)) =
      (List.range taps).map fun i => if i ≤ n then xs.getD (n - i) 0 else f32PlusZero := by
  have hlen : (xs.take (n + 1)).length = n + 1 := by simp; omega
  refine List.ext_getElem? fun i => ?_
  by_cases hi : i < taps
  · rw [lineAfter_getElem? _ _ hi, hlen]
    by_cases hin : i ≤ n
    · simp [hi, hin, show n - i < n + 1 by omega, show n - i < xs.length by omega]
    · simp [hi, hin, show ¬ i < n + 1 by omega, show i - (n + 1) < taps by omega]
  · simp [lineAfter, hi]

/-- Settles O27: from the zero fill the delay line is the history of the samples, and each output is the dot product
with the history at its sample. -/
theorem filterIsDirectFormConvolution : Obligations.FilterIsDirectFormConvolution := by
  intro taps coef cs xs htaps hcs
  obtain ⟨d, ys, hrun, hafter, hlen, hout⟩ := firRun_of_zeroFill htaps hcs xs
  refine ⟨d, ys, hrun, hlen, fun i hi => ?_, fun n hn => ?_⟩
  · rw [hafter.read_line hi]
    split
    · next hrecent => simp [show xs.length - 1 - i < xs.length by omega]
    · next hbefore => simp [show i - xs.length < taps by omega]
  · rw [hout n hn, lineAfter_zeros hn]

end Sys2Proof.Machine
end

section
/-! PROOFS. The impulse response of the filter (spec/00_scope.md R12, R13; spec/41_fir.md R80, R86): products and sums
whose exact result is a word are that word, so that one tap answers its coefficient and the zeros add nothing. -/

namespace Sys2Proof.Machine

/-! ### Products and sums that are exact (R12, R13) -/

/-- A word is its sign and its value. -/
theorem eq_of_f32Value_eq {v w : Word} (hsign : f32Sign v = f32Sign w) (hvalue : f32Value v = f32Value w) : v = w := by
  have hmag : patternMagnitude (v.toNat % 2 ^ 31) = patternMagnitude (w.toNat % 2 ^ 31) := by
    rw [← f32Magnitude_eq, ← f32Magnitude_eq, ← natAbs_f32Value, ← natAbs_f32Value, hvalue]
  rw [← f32Pack_eta v, ← f32Pack_eta w, hsign, patternMagnitude_strictMono.injective hmag]

/-- A word of value zero that is not `-0.0` is `+0.0`. -/
theorem eq_plusZero_of_f32Value {w : Word} (hv : f32Value w = 0) (hne : w ≠ f32MinusZero) : w = f32PlusZero := by
  have hpos : f32Sign w = false := by
    rw [← Bool.not_eq_true]
    exact fun hs => hne (eq_minusZero_of_f32Value hs hv)
  exact eq_of_f32Value_eq hpos hv

/-- The sign of a word that is not `-0.0` is that of its value. -/
theorem f32Sign_eq_of_ne_minusZero {w : Word} (hne : w ≠ f32MinusZero) : f32Sign w = decide (f32Value w < 0) := by
  cases hs : f32Sign w with
  | false => simp [not_lt.mpr (f32Value_nonneg hs)]
  | true =>
    have hv : f32Value w ≠ 0 := fun hv => hne (eq_minusZero_of_f32Value hs hv)
    simp [lt_of_le_of_ne (f32Value_nonpos hs) hv]

/-- A product that is a finite word is that word, when the sign agrees (R12). -/
theorem fmul_exact {a b c : Word} (ha : isFinite a = true) (hb : isFinite b = true) (hc : isFinite c = true)
    (hproduct : f32Value a * f32Value b = f32Value c * 2 ^ 149) (hsign : f32Sign c = (f32Sign a ^^ f32Sign b)) :
    fmul a b = .word c := by
  obtain ⟨w, hw, -, hs, hinf, hnear⟩ := productRoundsOnceToNearestEven a b ha hb
  have hfinite : isInf w = false := by
    rw [← Bool.not_eq_true, hinf, hproduct, Int.natAbs_mul, natAbs_f32Value, not_le]
    exact Nat.mul_lt_mul_of_pos_right (f32Magnitude_lt_of_isFinite hc) (by decide)
  have hzero := (hnear hfinite c hc).1
  rw [hproduct] at hzero
  rw [hw, eq_of_f32Value_eq (hs.trans hsign.symm) (by omega : f32Value w = f32Value c)]

/-- A sum that is a finite word is that word, zeros of sign `-` set apart (R13). -/
theorem fadd_exact {a b c : Word} (ha : isFinite a = true) (hb : isFinite b = true) (hc : isFinite c = true)
    (hsum : f32Value a + f32Value b = f32Value c) (hane : a ≠ f32MinusZero) (hcne : c ≠ f32MinusZero) :
    fadd a b = .word c := by
  obtain ⟨w, hw, -, hzero, hs, hinf, hnear⟩ := sumRoundsOnceToNearestEven a b ha hb
  rw [hsum] at hzero hs hinf hnear
  rw [hw]
  by_cases h0 : f32Value c = 0
  · rw [hzero h0, if_neg (fun h => hane h.1), eq_plusZero_of_f32Value h0 hcne]
  · have hfinite : isInf w = false := by
      rw [← Bool.not_eq_true, hinf, natAbs_f32Value, not_le]
      exact f32Magnitude_lt_of_isFinite hc
    have hvalue := (hnear hfinite c hc).1
    rw [eq_of_f32Value_eq ((hs h0).trans (f32Sign_eq_of_ne_minusZero hcne).symm)
      (by omega : f32Value w = f32Value c)]

/-- `+1.0` times a finite word is the word. -/
theorem fmul_plusOne {c : Word} (hc : isFinite c = true) : fmul f32PlusOne c = .word c := by
  have hone : f32Value f32PlusOne = 2 ^ 149 := by decide
  have hpos : f32Sign f32PlusOne = false := by decide
  exact fmul_exact (by decide) hc hc (by rw [hone, mul_comm]) (by rw [hpos, Bool.false_xor])

/-- `+0.0` times a finite word is a zero. -/
theorem fmul_plusZero {c : Word} (hc : isFinite c = true) :
    ∃ z, fmul f32PlusZero c = .word z ∧ isFinite z = true ∧ f32Value z = 0 := by
  have hzero : f32Value f32PlusZero = 0 := by decide
  have hpos : f32Sign f32PlusZero = false := by decide
  obtain ⟨z, hfinite, hvalue, hsign⟩ :
      ∃ z, isFinite z = true ∧ f32Value z = 0 ∧ f32Sign z = f32Sign c := by
    cases f32Sign c
    · exact ⟨f32PlusZero, by decide⟩
    · exact ⟨f32MinusZero, by decide⟩
  exact ⟨z, fmul_exact (by decide) hc hfinite (by rw [hzero, hvalue, zero_mul, zero_mul])
    (by rw [hsign, hpos, Bool.false_xor]), hfinite, hvalue⟩

/-! ### The taps of an impulse (R80, R86) -/

/-- A coefficient as the impulse response shows it: `-0.0` turned into `+0.0` (R86). -/
def plusZeroed (c : Word) : Word := if c = f32MinusZero then f32PlusZero else c

theorem plusZeroed_ne_minusZero (c : Word) : plusZeroed c ≠ f32MinusZero := by
  unfold plusZeroed
  split
  · decide
  · next hne => exact hne

theorem f32Value_plusZeroed (c : Word) : f32Value (plusZeroed c) = f32Value c := by
  unfold plusZeroed
  split
  · next h => rw [h]; decide
  · rfl

theorem isFinite_plusZeroed {c : Word} (hc : isFinite c = true) : isFinite (plusZeroed c) = true := by
  unfold plusZeroed
  split
  · decide
  · exact hc

/-- A tap that holds `+0.0` leaves the partial sum as it is. -/
theorem mac_plusZero {a c : Word} (ha : isFinite a = true) (hane : a ≠ f32MinusZero) (hc : isFinite c = true) :
    mac (.word a) f32PlusZero c = .word a := by
  obtain ⟨z, hz, hfinite, hvalue⟩ := fmul_plusZero hc
  simp [mac, hz, fadd_exact ha hfinite ha (by omega) hane hane]

/-- The tap that holds `+1.0`, added to `+0.0`, is its coefficient. -/
theorem mac_plusOne {c : Word} (hc : isFinite c = true) :
    mac (.word f32PlusZero) f32PlusOne c = .word (plusZeroed c) := by
  have hzero : f32Value f32PlusZero = 0 := by decide
  have hsum : fadd f32PlusZero c = .word (plusZeroed c) :=
    fadd_exact (by decide) hc (isFinite_plusZeroed hc) (by rw [hzero, f32Value_plusZeroed, zero_add]) (by decide)
      (plusZeroed_ne_minusZero c)
  simp [mac, fmul_plusOne hc, hsum]

/-- Taps that hold `+0.0` leave the partial sum as it is. -/
theorem foldl_mac_plusZeros (m : Nat) {cs : List Word} {a : Word} (ha : isFinite a = true) (hane : a ≠ f32MinusZero)
    (hcs : ∀ c ∈ cs, isFinite c = true) :
    ((List.replicate m f32PlusZero).zip cs).foldl (fun acc dc => mac acc dc.1 dc.2) (.word a) = .word a := by
  induction m generalizing cs with
  | zero => rfl
  | succ m ih =>
    cases cs with
    | nil => rfl
    | cons c cs =>
      rw [List.replicate_succ, List.zip_cons_cons, List.foldl_cons, mac_plusZero ha hane (hcs c List.mem_cons_self)]
      exact ih fun v hv => hcs v (List.mem_cons_of_mem _ hv)

/-- The dot product of a line with `+1.0` at index `k` and `+0.0` elsewhere is coefficient `k`, and `+0.0` when there is
none (R86). -/
theorem dot_impulse (k m : Nat) {cs : List Word} (hcs : ∀ c ∈ cs, isFinite c = true) :
    dot (List.replicate k f32PlusZero ++ f32PlusOne :: List.replicate m f32PlusZero) cs =
      .word ((cs[k]?.map plusZeroed).getD f32PlusZero) := by
  induction k generalizing cs with
  | zero =>
    cases cs with
    | nil => rfl
    | cons c cs =>
      have hc := hcs c List.mem_cons_self
      rw [dot, List.replicate_zero, List.nil_append, List.zip_cons_cons, List.foldl_cons, mac_plusOne hc,
        foldl_mac_plusZeros m (isFinite_plusZeroed hc) (plusZeroed_ne_minusZero c)
          fun v hv => hcs v (List.mem_cons_of_mem _ hv)]
      rfl
  | succ k ih =>
    cases cs with
    | nil => rfl
    | cons c cs =>
      rw [dot, List.replicate_succ, List.cons_append, List.zip_cons_cons, List.foldl_cons,
        mac_plusZero (by decide) (by decide) (hcs c List.mem_cons_self)]
      exact ih fun v hv => hcs v (List.mem_cons_of_mem _ hv)

/-- The elements of a line beyond the coefficients do not enter the dot product (R80). -/
theorem dot_take_length (ds cs : List Word) : dot (ds.take cs.length) cs = dot ds cs := by
  have hzip : (ds.take cs.length).zip cs = ds.zip cs := by
    rw [List.zip_eq_zip_take_min, @List.zip_eq_zip_take_min _ _ ds cs]
    simp [List.take_take, Nat.min_comm]
  rw [dot, dot, hzip]

/-- The line after an impulse and `k` zeros into zeros: `+1.0` has reached index `k`. -/
theorem dot_lineAfter_impulse {taps k : Nat} {cs : List Word} (hlen : cs.length = taps)
    (hcs : ∀ c ∈ cs, isFinite c = true) :
    dot (lineAfter taps (List.replicate taps f32PlusZero) (f32PlusOne :: List.replicate k f32PlusZero)) cs =
      .word ((cs[k]?.map plusZeroed).getD f32PlusZero) := by
  subst hlen
  rw [lineAfter, dot_take_length, List.reverse_cons, List.reverse_replicate, List.append_assoc, List.singleton_append,
    dot_impulse k _ hcs]

/-- Settles O28: output `k` is the dot product of the coefficients with the line in which the impulse has reached
index `k`. -/
theorem impulseResponseIsTheCoefficients : Obligations.ImpulseResponseIsTheCoefficients := by
  intro taps n coef cs htaps hcs hfinite
  obtain ⟨d, ys, hrun, -, -, hout⟩ := firRun_of_zeroFill htaps hcs (f32PlusOne :: List.replicate n f32PlusZero)
  refine ⟨d, ys, hrun, fun k hk => ?_⟩
  rw [hout k (by simpa using Nat.lt_succ_of_le hk), List.take_succ_cons, List.take_replicate, Nat.min_eq_left hk,
    dot_lineAfter_impulse (Store.readFrom_eq_some_iff.mp hcs).1 hfinite]
  cases cs[k]? <;> rfl

end Sys2Proof.Machine
end

section
/-! PROOFS. CONV in closed form: which samples of its byte are kept, what they are, and what its loop leaves
(spec/44_pipeline.md R102 to R104). -/

namespace Sys2Proof.Machine

/-! ### One pass of the loop (R102) -/

/-- The words that a pass of CONV's loop emits for the filter output `y`: one for a kept sample, none for a dropped one
(R102). -/
def emittedWords (keep : Bool) (y : FloatResult) : List Word :=
  if keep then ((quantizeResult y).map sext32).toList else []

/-- A pass goes on unless its sample is kept and a NaN. -/
theorem convSample_of_firStep {taps : Nat} {coef d : Store} {factor x : Word} {w : ConvWork} {y : FloatResult}
    (hfir : firStep taps coef w.delay x = some (d, y))
    (hnan : (decStep factor w.phase).1 = true → quantizeResult y ≠ none) :
    convSample taps coef factor x w =
      .ok ⟨d, (decStep factor w.phase).2, w.out ++ emittedWords (decStep factor w.phase).1 y⟩ := by
  rcases decStep_cases factor w.phase with ⟨-, hkept⟩ | ⟨-, hdropped⟩
  · obtain ⟨q, hq⟩ := Option.ne_none_iff_exists'.mp (hnan (by rw [hkept]))
    simp [convSample, hfir, hkept, hq, emittedWords]
  · simp [convSample, hfir, hdropped, emittedWords]

/-- A kept NaN ends the loop with `E_NAN`. -/
theorem convSample_of_nan {taps : Nat} {coef d : Store} {factor x : Word} {w : ConvWork} {y : FloatResult}
    (hfir : firStep taps coef w.delay x = some (d, y)) (hkept : (decStep factor w.phase).1 = true)
    (hnan : quantizeResult y = none) : convSample taps coef factor x w = .error (.raise .eNan) := by
  rcases decStep_cases factor w.phase with ⟨-, hstep⟩ | ⟨-, hstep⟩
  · simp [convSample, hfir, hstep, hnan]
  · simp [hstep] at hkept

/-- The loop over one more sample. -/
theorem convSamples_snoc (taps : Nat) (coef : Store) (factor : Word) (xs : List Word) (x : Word) (w : ConvWork) :
    convSamples taps coef factor (xs ++ [x]) w =
      convSamples taps coef factor xs w >>= convSample taps coef factor x := by
  induction xs generalizing w with
  | nil =>
    show convSamples taps coef factor [x] w = convSample taps coef factor x w
    simp only [convSamples]
    cases convSample taps coef factor x w <;> rfl
  | cons x' xs ih =>
    simp only [List.cons_append, convSamples]
    cases convSample taps coef factor x' w with
    | error e => rfl
    | ok w' => exact ih w'

/-! ### The first samples of a byte -/

/-- `n` samples after `PHASE` was `phase`, the decimator keeps the sample that completes a group of `FACTOR`, and
`PHASE` counts on (R94, R96). -/
theorem decStep_convKeeps {factor phase p : Word} {n : Nat} (hlt : phase.toNat < factor.toNat)
    (hp : p.toNat = (phase.toNat + n) % factor.toNat) :
    (decStep factor p).1 = convKeeps factor phase n ∧
      (decStep factor p).2.toNat = (phase.toNat + (n + 1)) % factor.toNat := by
  have hplt : p.toNat < factor.toNat := hp ▸ Nat.mod_lt _ (by omega)
  obtain ⟨hkept, hnext⟩ := decStep_spec hplt
  have hmod : (p.toNat + 1) % factor.toNat = (phase.toNat + (n + 1)) % factor.toNat := by
    rw [hp, Nat.mod_add_mod, Nat.add_assoc]
  refine ⟨?_, hnext.trans hmod⟩
  rw [hkept, convKeeps, Nat.add_assoc, ← hmod, Bool.eq_iff_iff, decide_eq_true_eq, beq_iff_eq]
  by_cases hlast : p.toNat + 1 = factor.toNat
  · simp [hlast]
  · simp [hlast, Nat.mod_eq_of_lt (show p.toNat + 1 < factor.toNat by omega)]

/-- The first `n` samples of a PDM byte, bit 0 first (R40, R89). -/
def firstSamples (b : Byte) (n : Nat) : List Word := (List.range n).map (unpackBit b)

theorem firstSamples_succ (b : Byte) (n : Nat) : firstSamples b (n + 1) = firstSamples b n ++ [unpackBit b n] := by
  simp [firstSamples, List.range_succ]

theorem firstSamples_eight (b : Byte) : firstSamples b 8 = unpackByte b := rfl

theorem convOutput_eq (taps : Nat) (old cs : List Word) (b : Byte) (k : Nat) :
    convOutput taps old cs b k = dot (lineAfter taps old (firstSamples b (k + 1))) cs := by
  simp only [convOutput, lineAfter, firstSamples, List.map_reverse]

/-- The quantized kept outputs among the first `n` samples, in time order (R102). -/
def convWords (factor phase : Word) (output : Nat → FloatResult) (n : Nat) : List Word :=
  ((List.range n).filter (convKeeps factor phase)).filterMap fun k => (quantizeResult (output k)).map sext32

theorem convWords_succ (factor phase : Word) (output : Nat → FloatResult) (n : Nat) :
    convWords factor phase output (n + 1) =
      convWords factor phase output n ++ emittedWords (convKeeps factor phase n) (output n) := by
  rw [convWords, convWords, List.range_succ, List.filter_append, List.filterMap_append, List.append_cancel_left_eq,
    emittedWords]
  cases hkeep : convKeeps factor phase n with
  | false => simp [hkeep]
  | true => cases hq : quantizeResult (output n) <;> simp [hkeep, hq]

/-- Sample `k` is kept and its output is a NaN (R100, R102). -/
def KeptNaN (factor phase : Word) (output : Nat → FloatResult) (k : Nat) : Prop :=
  convKeeps factor phase k = true ∧ quantizeResult (output k) = none

section Loop

variable {taps : Nat} {coef delay : Store} {factor phase : Word} {old cs : List Word} (b : Byte) (htaps : 1 ≤ taps)
  (hold : delay.readFrom 0 taps = some old) (hcs : coef.readFrom 0 taps = some cs)
  (hlt : phase.toNat < factor.toNat)

include htaps hold hcs hlt

/-- CONV's loop over the first `n` samples, when none of them is a kept NaN (R102, R103). -/
theorem convSamples_of_no_keptNaN {n : Nat}
    (hnone : ∀ k, k < n → ¬ KeptNaN factor phase (convOutput taps old cs b) k) :
    ∃ d p, convSamples taps coef factor (firstSamples b n) ⟨delay, phase, []⟩ =
        .ok ⟨d, p, convWords factor phase (convOutput taps old cs b) n⟩ ∧
      DelayAfter taps delay old (firstSamples b n) d ∧ p.toNat = (phase.toNat + n) % factor.toNat := by
  induction n with
  | zero => exact ⟨delay, phase, rfl, .start hold, (Nat.mod_eq_of_lt hlt).symm⟩
  | succ n ih =>
    obtain ⟨d, p, hloop, hafter, hp⟩ := ih fun k hk => hnone k (by omega)
    obtain ⟨d', hfir, hafter'⟩ := hafter.firStep htaps hcs (unpackBit b n)
    obtain ⟨hkept, hnext⟩ := decStep_convKeeps hlt hp
    rw [← firstSamples_succ, ← convOutput_eq] at hfir
    rw [← firstSamples_succ] at hafter'
    refine ⟨d', _, ?_, hafter', hnext⟩
    rw [firstSamples_succ, convSamples_snoc, hloop, convWords_succ, ← hkept]
    exact convSample_of_firStep (w := ⟨d, p, _⟩) hfir fun hkeep hnan => hnone n (by omega) ⟨hkept ▸ hkeep, hnan⟩

/-- CONV's loop over the first `n` samples, when one of them is a kept NaN: it ends at the earliest (R102, R104). -/
theorem convSamples_of_keptNaN {n : Nat}
    (hsome : ∃ k, k < n ∧ KeptNaN factor phase (convOutput taps old cs b) k) :
    convSamples taps coef factor (firstSamples b n) ⟨delay, phase, []⟩ = .error (.raise .eNan) := by
  induction n with
  | zero => obtain ⟨k, hk, -⟩ := hsome; omega
  | succ n ih =>
    rw [firstSamples_succ, convSamples_snoc]
    by_cases hearly : ∃ k, k < n ∧ KeptNaN factor phase (convOutput taps old cs b) k
    · rw [ih hearly]
      rfl
    · have hnone : ∀ k, k < n → ¬ KeptNaN factor phase (convOutput taps old cs b) k :=
        fun k hk hnan => hearly ⟨k, hk, hnan⟩
      obtain ⟨k, hk, hkeep, hnan⟩ := hsome
      obtain rfl : k = n := (Nat.lt_succ_iff_lt_or_eq.mp hk).resolve_left fun hkn => hnone k hkn ⟨hkeep, hnan⟩
      obtain ⟨d, p, hloop, hafter, hp⟩ := convSamples_of_no_keptNaN b htaps hold hcs hlt hnone
      obtain ⟨d', hfir, -⟩ := hafter.firStep htaps hcs (unpackBit b k)
      rw [← firstSamples_succ, ← convOutput_eq] at hfir
      rw [hloop]
      exact convSample_of_nan (w := ⟨d, p, _⟩) hfir ((decStep_convKeeps hlt hp).1.trans hkeep) hnan

end Loop

/-! ### The command -/

theorem exec_conv_of_ok {s : State} {b : Byte} {w : ConvWork} (hs : s.state = .ready)
    (hloop : convSamples s.taps s.heldCoef s.factor (unpackByte b) ⟨s.delay, s.phase, []⟩ = .ok w) :
    exec (.conv b) s = .next ({ s with delay := w.delay, phase := w.phase }.answer .ok w.out) := by
  simp [exec, execConv, hs, hloop, State.done]

theorem exec_conv_of_raise {s : State} {b : Byte} {e : Status} (hs : s.state = .ready)
    (hloop : convSamples s.taps s.heldCoef s.factor (unpackByte b) ⟨s.delay, s.phase, []⟩ = .error (.raise e)) :
    exec (.conv b) s = .next (s.answer e []) := by
  simp [exec, execConv, hs, hloop, State.stop, State.fail]

/-- Where the elements of the delay line are after the eight samples of a byte (R80, R102). -/
theorem DelayAfter.read_unpackByte {taps : Nat} {delay d : Store} {old : List Word} {b : Byte}
    (hold : delay.readFrom 0 taps = some old) (h : DelayAfter taps delay old (unpackByte b) d) (j : Nat) :
    d.read j = if j < taps then (if j < 8 then some (unpackBit b (7 - j)) else delay.read (j - 8))
      else delay.read j := by
  split
  · next hj =>
    rw [h.read_line hj, unpackByte_length]
    by_cases hnew : j < 8
    · rw [if_pos hnew, if_pos hnew, unpackByte_getElem?, if_pos (by omega)]
    · have hread := (Store.readFrom_eq_some_iff.mp hold).2 (j - 8) (by omega)
      rw [if_neg hnew, if_neg hnew, ← hread, Nat.zero_add]
  · next hj => exact h.frame j (by omega)

/-- Settles O44: the loop over the byte ends at its earliest kept NaN, and goes through when there is none. -/
theorem convRunsThePipelineOnOneByte : Obligations.ConvRunsThePipelineOnOneByte := by
  intro b s old cs hs hinv hold hcs
  refine ⟨fun hsome => exec_conv_of_raise hs ?_, fun hnone => ?_⟩
  · exact convSamples_of_keptNaN b hinv.taps_pos hold hcs hinv.phase_lt hsome
  · obtain ⟨d, p, hloop, hafter, hp⟩ := convSamples_of_no_keptNaN b hinv.taps_pos hold hcs hinv.phase_lt (n := 8)
      fun k hk hnan => hnone k hk hnan.1 hnan.2
    exact ⟨d, p, exec_conv_of_ok hs hloop, hp, hafter.read_unpackByte hold⟩

end Sys2Proof.Machine
end

section
/-! PROOFS. What UNPK answers, and that the byte can be read back from its eight samples (spec/42_unpack.md R88 to
R90). -/

namespace Sys2Proof.Machine

/-- UNPK answers the samples of its byte, in every state (R89). -/
theorem exec_unpk (b : Byte) (s : State) : exec (.unpk b) s = .next (s.answer .ok (unpackByte b)) := rfl

/-- A bit is recovered from its sample (R90). -/
theorem unpackBit_eq_plusOne_iff (b : Byte) (k : Nat) : unpackBit b k = f32PlusOne ↔ b.getLsbD k = true := by
  have hne : f32MinusOne ≠ f32PlusOne := by decide
  unfold unpackBit
  split
  · next hset => exact iff_of_true rfl hset
  · next hclear => exact iff_of_false hne hclear

/-- Settles O34: the data words are the samples of the byte, and sample `k` is that of bit `k`. -/
theorem unpkAnswersTheBitsInTimeOrder : Obligations.UnpkAnswersTheBitsInTimeOrder := by
  intro b s
  refine ⟨unpackByte b, exec_unpk b s, unpackByte_length b, fun k hk => ?_⟩
  rw [unpackByte_getElem?, if_pos hk]
  rfl

/-- Settles O35: equal groups agree in each sample, and a sample gives its bit back. -/
theorem unpackingIsInjective : Obligations.UnpackingIsInjective := by
  intro b c hsame
  refine BitVec.eq_of_getLsbD_eq fun k hk => ?_
  have hsample : unpackBit b k = unpackBit c k := by
    simpa [unpackByte_getElem?, hk] using congrArg (·[k]?) hsame
  rw [Bool.eq_iff_iff, ← unpackBit_eq_plusOne_iff, ← unpackBit_eq_plusOne_iff, hsample]

end Sys2Proof.Machine
end

section
/-! PROOFS. The decimator: what DSYNC and DEC do to `PHASE` and answer, and how many samples of a frame are kept
(spec/43_decimate_quantize.md R92 to R96). -/

namespace Sys2Proof.Machine

/-! ### DSYNC and DEC (R93, R95) -/

/-- Settles O36: in Ready the only check of DSYNC passes. -/
theorem dsyncStartsANewFrame : Obligations.DsyncStartsANewFrame := by
  intro s hs
  simp [exec, execDsync, hs, State.done]

/-- DEC in Ready is one decimator step: the operand comes back exactly when it is kept (R95). -/
theorem exec_dec (x : Word) {s : State} (hs : s.state = .ready) :
    exec (.dec x) s = .next ({ s with phase := (decStep s.factor s.phase).2 }.answer .ok
      (if (decStep s.factor s.phase).1 then [x] else [])) := by
  rcases decStep_cases s.factor s.phase with ⟨-, hstep⟩ | ⟨-, hstep⟩ <;>
    simp [exec, execDec, hs, hstep, State.done]

/-- Settles O37: the decimator step keeps a sample when `PHASE + 1` is `FACTOR`, and counts modulo `FACTOR`. -/
theorem decAnswersTheLastSampleOfEachGroup : Obligations.DecAnswersTheLastSampleOfEachGroup := by
  intro x s hs hfactor hphase
  rw [s32_eq_toNat hfactor] at hphase ⊢
  obtain ⟨hkept, hnext⟩ := decStep_spec (factor := s.factor) (phase := s.phase) (by omega)
  rw [exec_dec x hs]
  constructor
  · intro hlast
    have hgroup : s.phase.toNat + 1 = s.factor.toNat := by omega
    have hzero : (decStep s.factor s.phase).2 = 0 :=
      BitVec.eq_of_toNat_eq (by rw [hnext, hgroup, Nat.mod_self]; rfl)
    simp [hkept, hgroup, hzero]
  · intro hinside
    have hdropped : s.phase.toNat + 1 ≠ s.factor.toNat := by omega
    exact ⟨_, by simp [hkept, hdropped], hnext.trans (Nat.mod_eq_of_lt (by omega))⟩

/-! ### The samples of a frame (R94) -/

theorem decRun_succ (factor : Word) (n : Nat) (phase : Word) :
    decRun factor (n + 1) phase =
      ((decRun factor n phase).1 + (if (decStep factor (decRun factor n phase).2).1 then 1 else 0),
        (decStep factor (decRun factor n phase).2).2) := by
  rcases decStep_cases factor (decRun factor n phase).2 with ⟨-, hstep⟩ | ⟨-, hstep⟩ <;> simp [decRun, hstep]

/-- Settles O38, by induction on the samples: sample `n + 1` is kept when `FACTOR` divides `n + 1`, which is when
`floor((n + 1) / FACTOR)` grows. -/
theorem decimatorKeepsOneInFactor : Obligations.DecimatorKeepsOneInFactor := by
  intro factor n hfactor
  have hzero : (0 : Word).toNat = 0 := rfl
  have hpos : (0 : Word).toNat < factor.toNat := by
    have hunsigned := s32_eq_toNat hfactor
    omega
  induction n with
  | zero => simp [decRun]
  | succ n ih =>
    obtain ⟨hcount, hphase⟩ := ih
    obtain ⟨hkept, hnext⟩ := decStep_convKeeps (p := (decRun factor n 0).2) (n := n) hpos
      (by rw [hphase, hzero, Nat.zero_add])
    rw [decRun_succ, hkept, hcount]
    rw [hzero, Nat.zero_add] at hnext
    refine ⟨?_, hnext⟩
    simp [convKeeps, Nat.succ_div, Nat.dvd_iff_mod_eq_zero]

end Sys2Proof.Machine
end

section
/-! PROOFS. The quantizer: its scaled product, the clip and the truncation as numbers, and QNT
(spec/00_scope.md R12, R14, R15; spec/43_decimate_quantize.md R97 to R100). -/

namespace Sys2Proof.Machine

/-! ### Rounding is monotone (R12) -/

theorem nearestEven_mono {n n' : Nat} (D : Nat) (h : n ≤ n') : nearestEven n D ≤ nearestEven n' D := by
  rcases (Nat.div_le_div_right h : n / D ≤ n' / D).lt_or_eq with hlt | heq
  · have hn := nearestEven_eq_or n D
    have hn' := nearestEven_eq_or n' D
    omega
  · have hrest : n % D ≤ n' % D := by
      have hn := Nat.div_add_mod n D
      have hn' := Nat.div_add_mod n' D
      rw [heq] at hn
      omega
    unfold nearestEven
    rw [heq]
    split <;> split <;> omega

theorem roundDrop_mono {n n' : Nat} (k : Nat) (h : n ≤ n') : roundDrop n k ≤ roundDrop n' k := by
  have hlog : n.log2 ≤ n'.log2 := by
    rw [Nat.log2_eq_log_two, Nat.log2_eq_log_two]
    exact Nat.log_mono_right h
  exact max_le_max le_rfl (Nat.sub_le_sub_right hlog 23)

/-- A larger exact result rounds to no smaller pattern: in one binade by the quotient, and from a lower binade the
carry reaches at most the first pattern of the next. -/
theorem f32Round_mono {n n' : Nat} (k : Nat) (h : n ≤ n') : f32Round n k ≤ f32Round n' k := by
  rw [f32Round_eq, f32Round_eq]
  refine min_le_min_right _ ?_
  have hk := le_roundDrop n k
  rcases (roundDrop_mono k h).lt_or_eq with hlt | heq
  · have hn := nearestEven_eq_or n (2 ^ roundDrop n k)
    have hn' := nearestEven_eq_or n' (2 ^ roundDrop n' k)
    have hbelow := quotient_lt n k
    have habove := le_quotient n' k
    omega
  · have hnear := nearestEven_mono (2 ^ roundDrop n' k) h
    rw [heq]
    omega

/-! ### The scaled product (R97) -/

/-- The product of `x` and 32767, rounded once (R97). For an infinity it is the infinity. -/
def scaled (x : Word) : Word := roundedWord (f32Sign x) (f32Magnitude x * f32Magnitude f32Scale) 149

theorem f32Magnitude_of_isInf {x : Word} (h : isInf x = true) : f32Magnitude x = 2 ^ 23 * 2 ^ 254 := by
  simp only [isInf, Bool.and_eq_true, beq_iff_eq] at h
  obtain ⟨hexponent, hfraction⟩ := h
  rw [f32Magnitude, hexponent, hfraction, if_neg (by norm_num), Nat.add_zero]

theorem f32Magnitude_scale : f32Magnitude f32Scale = 32767 * 2 ^ 149 := by decide

theorem f32Value_scale : f32Value f32Scale = 32767 * 2 ^ 149 := by decide

theorem f32Value_lowerClip : f32Value f32LowerClip = -32768 * 2 ^ 149 := by decide

theorem isNaN_scaled (x : Word) : isNaN (scaled x) = false := isNaN_roundedWord _ _ _

/-- The magnitude that stands for an infinity overflows like any product beyond the finite words, so that the product
with 32767 needs no case of its own for the infinities (R12). -/
theorem fmul_scale {x : Word} (h : isNaN x = false) : fmul x f32Scale = .word (scaled x) := by
  have hpos : f32Sign f32Scale = false := by decide
  cases hinf : isInf x with
  | false => simp [fmul, h, hinf, f32Scale_isNaN, f32Scale_isInf, hpos, scaled, roundedWord]
  | true =>
    have hround : f32Round (f32Magnitude x * f32Magnitude f32Scale) 149 = f32InfBits := by
      rw [f32Round_eq_inf_iff, f32Magnitude_of_isInf hinf, f32Magnitude_scale]
      norm_num
    have hword : fmul x f32Scale ≠ .unfixedNaN := by
      rw [Ne, fmul_scale_eq_nan_iff, h]
      simp
    rw [fmul_of_isInf hword (.inl hinf), hpos, Bool.xor_false, scaled, roundedWord, hround]

/-- The magnitude of the scaled product of a word of magnitude `n` (R97). -/
def scaledMagnitude (n : Nat) : Nat := patternMagnitude (f32Round (n * f32Magnitude f32Scale) 149)

theorem scaledMagnitude_mono : Monotone scaledMagnitude := fun _ _ h =>
  patternMagnitude_strictMono.monotone (f32Round_mono 149 (Nat.mul_le_mul_right _ h))

@[simp] theorem scaledMagnitude_zero : scaledMagnitude 0 = 0 := by simp [scaledMagnitude]

theorem f32Value_scaled (x : Word) :
    f32Value (scaled x) =
      if f32Sign x then -(scaledMagnitude (f32Magnitude x) : Int) else scaledMagnitude (f32Magnitude x) := by
  rw [f32Value, scaled, f32Sign_roundedWord, roundedWord, f32Magnitude_pack_eq _ (f32Round_lt _ _)]
  rfl

/-- Scaling is monotone in the value: words of one sign by their magnitudes, and of opposite signs each on its side of
zero. -/
theorem f32Value_scaled_mono {x y : Word} (h : f32Value x ≤ f32Value y) :
    f32Value (scaled x) ≤ f32Value (scaled y) := by
  rw [f32Value_scaled, f32Value_scaled]
  unfold f32Value at h
  cases hx : f32Sign x <;> cases hy : f32Sign y <;> simp only [hx, hy, if_true, if_false, Bool.false_eq_true] at h ⊢
  case false.false =>
    have := scaledMagnitude_mono (show f32Magnitude x ≤ f32Magnitude y by omega)
    omega
  case false.true =>
    rw [show f32Magnitude x = 0 by omega, show f32Magnitude y = 0 by omega]
    simp
  case true.false => omega
  case true.true =>
    have := scaledMagnitude_mono (show f32Magnitude y ≤ f32Magnitude x by omega)
    omega

/-! ### Negation flips the sign bit -/

theorem toNat_flipSign (x : Word) : (x ^^^ 0x80000000).toNat % 2 ^ 31 = x.toNat % 2 ^ 31 := by
  rw [BitVec.toNat_xor, Nat.xor_mod_two_pow]
  simp

theorem f32Sign_flipSign (x : Word) : f32Sign (x ^^^ 0x80000000) = !f32Sign x := by
  simp [f32Sign]

theorem f32Value_scaled_flipSign (x : Word) : f32Value (scaled (x ^^^ 0x80000000)) = -f32Value (scaled x) := by
  rw [f32Value_scaled, f32Value_scaled, f32Sign_flipSign, f32Magnitude_eq, toNat_flipSign, ← f32Magnitude_eq]
  cases f32Sign x <;> simp

/-! ### Clip and truncation (R15, R97) -/

/-- A value in units of 2^-149 with its fraction discarded, clipped to `-32768 .. 32767` (R97). -/
def clippedWhole (z : Int) : Int := max (-32768) (min 32767 (z.tdiv (2 ^ 149)))

theorem clippedWhole_mono : Monotone clippedWhole := fun _ _ h =>
  max_le_max le_rfl (min_le_min le_rfl (Int.tdiv_le_tdiv (by norm_num) h))

theorem le_tdiv_unit {n z : Int} (h : n * 2 ^ 149 ≤ z) : n ≤ z.tdiv (2 ^ 149) := by
  have hle := Int.tdiv_le_tdiv (c := 2 ^ 149) (by norm_num) h
  rwa [Int.mul_tdiv_cancel _ (by norm_num)] at hle

theorem tdiv_unit_le {n z : Int} (h : z ≤ n * 2 ^ 149) : z.tdiv (2 ^ 149) ≤ n := by
  have hle := Int.tdiv_le_tdiv (c := 2 ^ 149) (by norm_num) h
  rwa [Int.mul_tdiv_cancel _ (by norm_num)] at hle

/-- Truncation discards the fraction of the magnitude, which is division toward zero (R15). -/
theorem ftruncI16_eq (v : Word) : ftruncI16 v = BitVec.ofInt 16 ((f32Value v).tdiv (2 ^ 149)) := by
  unfold ftruncI16 f32Value
  cases f32Sign v
  · rfl
  · simp only [if_true, Int.neg_tdiv]
    rfl

/-- The two clip tests of R97, each with what it answers, and the truncation between them. -/
theorem clipToI16_toInt {v : Word} (h : isNaN v = false) : (clipToI16 v).toInt = clippedWhole (f32Value v) := by
  have hlowNaN : isNaN f32LowerClip = false := by decide
  have hgt : fgt v f32Scale = true ↔ 32767 * 2 ^ 149 < f32Value v := by
    simp [fgt_iff, h, f32Scale_isNaN, f32Value_scale]
  have hlt : flt v f32LowerClip = true ↔ f32Value v < -32768 * 2 ^ 149 := by
    simp [flt_iff, h, hlowNaN, f32Value_lowerClip]
  unfold clipToI16 clippedWhole
  split
  · next habove =>
    rw [min_eq_left (le_tdiv_unit (hgt.mp habove).le)]
    rfl
  next hnotAbove =>
  split
  · next hbelow =>
    rw [max_eq_left ((min_le_right _ _).trans (tdiv_unit_le (hlt.mp hbelow).le))]
    rfl
  · next hnotBelow =>
    have hle := tdiv_unit_le (not_lt.mp (mt hgt.mpr hnotAbove))
    have hge := le_tdiv_unit (not_lt.mp (mt hlt.mpr hnotBelow))
    rw [min_eq_right hle, max_eq_right hge, ftruncI16_eq]
    exact BitVec.toInt_ofInt_eq_self (by norm_num) hge (by omega)

/-! ### The quantizer (R97, R99) -/

theorem quantize_of_not_nan {x : Word} (h : isNaN x = false) : quantize x = some (clipToI16 (scaled x)) := by
  rw [quantize, fmul_scale h]

/-- A sample is the clipped whole number of the scaled product. -/
theorem toInt_of_quantize {x : Word} {q : Sample} (h : quantize x = some q) :
    q.toInt = clippedWhole (f32Value (scaled x)) := by
  have hnan : isNaN x = false := by
    rw [← Bool.not_eq_true, ← quantize_eq_none_iff, h]
    simp
  rw [quantize_of_not_nan hnan, Option.some.injEq] at h
  rw [← h, clipToI16_toInt (isNaN_scaled x)]

/-- Settles O41: scaling, clip and truncation are monotone. -/
theorem quantizerIsMonotone : Obligations.QuantizerIsMonotone := by
  intro x y hx hy hle
  have hp := quantize_of_not_nan hx
  have hq := quantize_of_not_nan hy
  refine ⟨_, _, hp, hq, ?_⟩
  rw [toInt_of_quantize hp, toInt_of_quantize hq]
  exact clippedWhole_mono (f32Value_scaled_mono hle)

theorem toInt_ne_of_ne_lowerBound {q : Sample} (h : q ≠ -32768) : q.toInt ≠ -32768 := fun heq =>
  h (BitVec.eq_of_toInt_eq (heq.trans (by decide)))

/-- Settles O42: the scaled product is odd, and so is truncation; a whole number beyond 32767 would put the sample of
the other sign at the lower bound. -/
theorem quantizerIsOddAwayFromTheLowerBound : Obligations.QuantizerIsOddAwayFromTheLowerBound := by
  intro x p q hp hq hpne hqne
  have hpint := toInt_of_quantize hp
  have hqint := toInt_of_quantize hq
  have hplow := toInt_ne_of_ne_lowerBound hpne
  have hqlow := toInt_ne_of_ne_lowerBound hqne
  rw [f32Value_scaled_flipSign, clippedWhole, Int.neg_tdiv] at hqint
  rw [clippedWhole] at hpint
  refine BitVec.eq_of_toInt_eq ?_
  rw [BitVec.toInt_neg_of_ne_intMin hpne]
  omega

/-- Settles O43: the fixed words of R99, evaluated. -/
theorem quantizerCornerCases : Obligations.QuantizerCornerCases := by
  unfold Obligations.QuantizerCornerCases
  decide +kernel

/-! ### QNT (R98, R100) -/

theorem exec_qnt_of_some {x : Word} {q : Sample} (s : State) (h : quantize x = some q) :
    exec (.qnt x) s = .next (s.answer .ok [sext32 q]) := by
  simp [exec, execQnt, h, State.done]

theorem exec_qnt_of_none {x : Word} (s : State) (h : quantize x = none) :
    exec (.qnt x) s = .next (s.answer .eNan []) := by
  simp [exec, execQnt, h, State.fail]

/-- Settles O39: the sample of a word that is no NaN is that of the scaled product. -/
theorem qntScalesClipsAndTruncates : Obligations.QntScalesClipsAndTruncates := by
  intro x s hx
  have hq := quantize_of_not_nan hx
  exact ⟨scaled x, _, fmul_scale hx, exec_qnt_of_some s hq, toInt_of_quantize hq⟩

/-- Settles O40: a sample is answered with `OK`, and the last response tells the two apart. -/
theorem qntRefusesExactlyTheNaNs : Obligations.QntRefusesExactlyTheNaNs := by
  intro x s
  rw [← quantize_eq_none_iff]
  refine ⟨fun h => ?_, exec_qnt_of_none s⟩
  cases hq : quantize x with
  | none => rfl
  | some q =>
    rw [exec_qnt_of_some s hq, Host.Outcome.next.injEq] at h
    have hstatus := congrArg State.lastStatus h
    simp at hstatus

end Sys2Proof.Machine
end

section
/-! PROOFS. CONV against the single-component commands: one pass of its loop is APPLY, DEC and, for a kept sample, QNT
(spec/44_pipeline.md R105). -/

namespace Sys2Proof.Machine

/-! ### The state of the block, the host's side and the NaN counter set apart -/

/-- `u` and `t` agree in every register, in both stores and in `MAXTAPS`: what R105 means by the same state. The two
runs that it compares give different responses and may draw a different number of NaN words. -/
def State.SameBlock (u t : State) : Prop :=
  ∃ pending responses nanDraws,
    u = { t with pending := pending, responses := responses, nanDraws := nanDraws }

/-! ### One sample (R102, R105) -/

/-- A command that is answered `OK` lets the sequence go on. -/
theorem execOk_of_exec {i : Instr} {s u : State} {data : List Word} (h : exec i s = .next (u.answer .ok data)) :
    execOk i s = some (u.answer .ok data, data) := by
  simp [execOk, h]

/-- APPLY answers a word that the quantizer takes as it takes the filter output itself: the word drawn for a produced
NaN is a NaN, and the quantizer raises on every NaN (R16, R97, R100). -/
theorem exec_apply_quantize {s : State} {x : Word} {d : Store} {y : FloatResult} (hs : s.state = .ready)
    (hfir : firStep s.taps s.heldCoef s.delay x = some (d, y)) :
    ∃ v n, exec (.apply x) s = .next ({ s with delay := d, nanDraws := n }.answer .ok [v]) ∧
      quantize v = quantizeResult y := by
  obtain ⟨v, n, hemit, hword, hnan⟩ := State.emitFloat_eq { s with delay := d } y
  refine ⟨v, n, (exec_apply_of_firStep hs hfir).trans hemit, ?_⟩
  cases y with
  | word a => rw [(hword a rfl).1, quantizeResult]
  | unfixedNaN => exact (quantize_eq_none_iff v).mpr (hnan rfl)

/-- One sample through the parts: the filter step, the decimator step, and the words that a pass of CONV's loop emits
for the same output, unless the sample is kept and a NaN (R81, R95, R98). -/
theorem partsSample_of_firStep {s : State} {x : Word} {d : Store} {y : FloatResult} (hs : s.state = .ready)
    (hfir : firStep s.taps s.heldCoef s.delay x = some (d, y))
    (hnan : (decStep s.factor s.phase).1 = true → quantizeResult y ≠ none) :
    ∃ u, partsSample x s = some (u, emittedWords (decStep s.factor s.phase).1 y) ∧
      u.SameBlock { s with delay := d, phase := (decStep s.factor s.phase).2 } := by
  obtain ⟨v, n, happly, hquantize⟩ := exec_apply_quantize hs hfir
  have hdec := execOk_of_exec (exec_dec v (s := { s with delay := d, nanDraws := n }.answer .ok [v]) hs)
  rcases decStep_cases s.factor s.phase with ⟨-, hkept⟩ | ⟨-, hdropped⟩
  · obtain ⟨q, hq⟩ := Option.ne_none_iff_exists'.mp (hnan (by rw [hkept]))
    have hqnt := fun u => execOk_of_exec (exec_qnt_of_some u (hquantize.trans hq))
    simp only [State.answer_factor, State.answer_phase, hkept, if_true] at hdec
    simp only [partsSample, execOk_of_exec happly, hdec, hqnt, hkept, emittedWords, hq, if_true]
    exact ⟨_, rfl, _, _, _, rfl⟩
  · simp only [State.answer_factor, State.answer_phase, hdropped, Bool.false_eq_true, if_false] at hdec
    simp only [partsSample, execOk_of_exec happly, hdec, hdropped, emittedWords, Bool.false_eq_true, if_false]
    exact ⟨_, rfl, _, _, _, rfl⟩

/-! ### The samples of a byte (R105) -/

/-- The block of `s` once CONV's working copy `w` is written back to it (R104). -/
def State.withWork (s : State) (w : ConvWork) : State := { s with delay := w.delay, phase := w.phase }

/-- What a pass of CONV's loop that goes on leaves: the converse of `convSample_of_firStep`. -/
theorem convSample_emits {taps : Nat} {coef : Store} {factor x : Word} {w w' : ConvWork}
    (h : convSample taps coef factor x w = .ok w') :
    ∃ d y, firStep taps coef w.delay x = some (d, y) ∧
      ((decStep factor w.phase).1 = true → quantizeResult y ≠ none) ∧
      w' = ⟨d, (decStep factor w.phase).2, w.out ++ emittedWords (decStep factor w.phase).1 y⟩ := by
  obtain ⟨y, hfir, -, hout⟩ := convSample_eq_ok h
  have hnan : (decStep factor w.phase).1 = true → quantizeResult y ≠ none := by
    rcases hout with ⟨hdropped, -⟩ | ⟨-, q, hq, -⟩
    · simp [hdropped]
    · simp [hq]
  exact ⟨_, y, hfir, hnan, Except.ok.inj (h.symm.trans (convSample_of_firStep hfir hnan))⟩

/-- A pass of CONV's loop that goes on is one sample through the parts: the same words, the same state of the block. -/
theorem partsSample_of_convSample {s u : State} {x : Word} {w w' : ConvWork} (hs : s.state = .ready)
    (hu : u.SameBlock (s.withWork w)) (h : convSample s.taps s.heldCoef s.factor x w = .ok w') :
    ∃ u' words, partsSample x u = some (u', words) ∧ w'.out = w.out ++ words ∧ u'.SameBlock (s.withWork w') := by
  obtain ⟨d, y, hfir, hnan, rfl⟩ := convSample_emits h
  obtain ⟨p, r, n, rfl⟩ := hu
  obtain ⟨u', hparts, hsame⟩ := partsSample_of_firStep
    (s := { s.withWork w with pending := p, responses := r, nanDraws := n }) hs hfir hnan
  exact ⟨u', _, hparts, rfl, hsame⟩

/-- CONV's loop and the parts, sample by sample: after each pass the parts have left the block as CONV's working copy
has it. -/
theorem partsSamples_of_convSamples {s u : State} {xs : List Word} {w w' : ConvWork} (hs : s.state = .ready)
    (hu : u.SameBlock (s.withWork w)) (h : convSamples s.taps s.heldCoef s.factor xs w = .ok w') :
    ∃ u' words, partsSamples xs u = some (u', words) ∧ w'.out = w.out ++ words ∧ u'.SameBlock (s.withWork w') := by
  induction xs generalizing u w with
  | nil =>
    obtain rfl : w = w' := by simpa using h
    exact ⟨u, [], rfl, by simp, hu⟩
  | cons x xs ih =>
    obtain ⟨w1, hfirst, hrest⟩ := convSamples_cons_eq_ok_iff.mp h
    obtain ⟨u1, words1, hparts1, hout1, hu1⟩ := partsSample_of_convSample hs hu hfirst
    obtain ⟨u', words, hparts, hout, hu'⟩ := ih hu1 hrest
    exact ⟨u', words1 ++ words, by simp [partsSamples, hparts1, hparts], by simp [hout, hout1], hu'⟩

/-- Settles O46: an `OK` answer of CONV is that of a loop that went through, and UNPK hands the parts its samples in the
state of the block from which that loop starts. -/
theorem convEqualsItsParts : Obligations.ConvEqualsItsParts := by
  intro b s t data hexec hlast
  rcases exec_next_cases hexec with ⟨e, he, rfl⟩ | ⟨_, _, hconv, rfl⟩
  · simp [he] at hlast
  · cases hconv with
    | conv _ hs hloop =>
      obtain ⟨u, words, hparts, hout, _, _, _, rfl⟩ :=
        partsSamples_of_convSamples (u := s.answer .ok (unpackByte b)) hs ⟨_, _, _, rfl⟩ hloop
      obtain rfl : words = data := by simpa [hout] using hlast
      exact ⟨_, by simpa only [parts, execOk_of_exec (exec_unpk b s)] using hparts, rfl⟩

end Sys2Proof.Machine
end

section
/-! PROOFS. Read-back: what RDS, RDC and RDD answer, and that a read depends on the block alone and leaves the block as
it is (spec/45_readback.md R107 to R110). -/

namespace Sys2Proof.Machine

/-! ### The answer of a read -/

/-- How a read ends: with a response and no change to the block (R108), or at an element without a value (R19). -/
def State.respond (s : State) : Option Response → Result
  | some r => .next (s.answer r.status r.data)
  | none => .fault .noValue

theorem State.respond_eq_next_iff {s t : State} {o : Option Response} :
    s.respond o = .next t ↔ ∃ r, o = some r ∧ t = s.answer r.status r.data := by
  cases o with
  | none => simp [State.respond]
  | some r => simp [State.respond, eq_comm]

/-- The response to a read of a store element that passes its checks, if the element holds a value (R109, R110). -/
def elementResponse (value : Option Word) : Option Response := value.map fun w => ⟨.ok, [w]⟩

/-! ### RDS (R107) -/

/-- The six registers are the numbers 0 to 5, unsigned (R107). -/
theorem State.statusRegister_eq_none_iff (s : State) (n : Nat) : s.statusRegister n = none ↔ 6 ≤ n := by
  match n with
  | 0 | 1 | 2 | 3 | 4 | 5 => simp [State.statusRegister]
  | n + 6 => exact iff_of_true rfl (Nat.le_add_left 6 n)

theorem exec_rds_of_none {s : State} {r : Word} (h : s.statusRegister (idx r) = none) :
    exec (.rds r) s = .next (s.answer .eRange []) := by
  simp [exec, execRds, h, State.fail]

theorem LifeState.toWord_eq (l : LifeState) : l.toWord = if l = .ready then 1 else 0 := by
  cases l <;> rfl

/-- Settles O48: the registers by number, and no register from number 6 on. -/
theorem rdsAnswersTheControlRegisters : Obligations.RdsAnswersTheControlRegisters := by
  intro s
  have hstate : s.statusRegister (idx 0) = some (if s.state = .ready then 1 else 0) :=
    congrArg some s.state.toWord_eq
  exact ⟨exec_rds_of_statusRegister hstate, exec_rds_of_statusRegister rfl, exec_rds_of_statusRegister rfl,
    exec_rds_of_statusRegister rfl, exec_rds_of_statusRegister rfl, exec_rds_of_statusRegister rfl,
    fun r hr => exec_rds_of_none ((s.statusRegister_eq_none_iff r.toNat).mpr hr)⟩

/-! ### RDC (R109) -/

theorem exec_rdc_of_le {s : State} {k : Word} (hk : s.cptr.toNat ≤ k.toNat) :
    exec (.rdc k) s = .next (s.answer .eRange []) := by
  simp [exec, execRdc, idx, hk, State.fail]

theorem exec_rdc_of_lt {s : State} {k : Word} (hk : k.toNat < s.cptr.toNat) :
    exec (.rdc k) s = s.respond (elementResponse (s.heldCoef.read k.toNat)) := by
  simp only [exec, execRdc, idx, not_le.mpr hk, if_false]
  cases s.heldCoef.read k.toNat <;> rfl

/-- Settles O49: an index is below `CPTR`, and its element is answered, or it is refused. -/
theorem rdcAnswersTheCoefficient : Obligations.RdcAnswersTheCoefficient := fun i s =>
  ⟨fun w hi hw => by rw [exec_rdc_of_lt hi, hw]; rfl, exec_rdc_of_le⟩

/-! ### RDD (R110) -/

theorem exec_rdd_of_not_ready {s : State} (k : Word) (hs : s.state ≠ .ready) :
    exec (.rdd k) s = .next (s.answer .eState []) := by
  simp [exec, execRdd, hs, State.fail]

theorem exec_rdd_of_le {s : State} {k : Word} (hs : s.state = .ready) (hk : s.len.toNat ≤ k.toNat) :
    exec (.rdd k) s = .next (s.answer .eRange []) := by
  simp [exec, execRdd, idx, hs, hk, State.fail]

theorem exec_rdd_of_lt {s : State} {k : Word} (hs : s.state = .ready) (hk : k.toNat < s.len.toNat) :
    exec (.rdd k) s = s.respond (elementResponse (s.delay.read k.toNat)) := by
  simp only [exec, execRdd, idx, hs, not_le.mpr hk, ne_eq, not_true_eq_false, if_false]
  cases s.delay.read k.toNat <;> rfl

/-- Settles O50: in Ready an index is below `LEN`, and its element is answered, or it is refused. -/
theorem rddAnswersTheDelayLineElement : Obligations.RddAnswersTheDelayLineElement := fun i s hs =>
  ⟨fun w hi hw => by rw [exec_rdd_of_lt hs hi, hw]; rfl, exec_rdd_of_le hs⟩

/-! ### A read depends on the block alone (R108) -/

/-- `i` is a read at the block of `s`: in every state with this block it ends the same way, and leaves the block as it
is. -/
def ReadsBlock (i : Instr) (s : State) : Prop :=
  ∃ o : Option Response, ∀ u : State, u.SameBlock s → exec i u = u.respond o

theorem readsBlock_rds (r : Word) (s : State) : ReadsBlock (.rds r) s := by
  cases hr : s.statusRegister (idx r) with
  | none => exact ⟨some ⟨.eRange, []⟩, by rintro _ ⟨_, _, _, rfl⟩; exact exec_rds_of_none hr⟩
  | some w => exact ⟨some ⟨.ok, [w]⟩, by rintro _ ⟨_, _, _, rfl⟩; exact exec_rds_of_statusRegister hr⟩

theorem readsBlock_rdc (k : Word) (s : State) : ReadsBlock (.rdc k) s := by
  rcases Nat.lt_or_ge k.toNat s.cptr.toNat with hk | hk
  · exact ⟨elementResponse (s.heldCoef.read k.toNat), by rintro _ ⟨_, _, _, rfl⟩; exact exec_rdc_of_lt hk⟩
  · exact ⟨some ⟨.eRange, []⟩, by rintro _ ⟨_, _, _, rfl⟩; exact exec_rdc_of_le hk⟩

theorem readsBlock_rdd (k : Word) (s : State) : ReadsBlock (.rdd k) s := by
  by_cases hs : s.state = .ready
  · rcases Nat.lt_or_ge k.toNat s.len.toNat with hk | hk
    · exact ⟨elementResponse (s.delay.read k.toNat), by rintro _ ⟨_, _, _, rfl⟩; exact exec_rdd_of_lt hs hk⟩
    · exact ⟨some ⟨.eRange, []⟩, by rintro _ ⟨_, _, _, rfl⟩; exact exec_rdd_of_le hs hk⟩
  · exact ⟨some ⟨.eState, []⟩, by rintro _ ⟨_, _, _, rfl⟩; exact exec_rdd_of_not_ready k hs⟩

/-- An answered read has given a response and left the block; in the state after it, it gives the same response. -/
theorem ReadsBlock.answers_again {i : Instr} {s t : State} (hread : ReadsBlock i s) (h : exec i s = .next t) :
    ∃ r : Response, t = s.answer r.status r.data ∧ exec i t = .next (t.answer r.status r.data) := by
  obtain ⟨o, ho⟩ := hread
  rw [ho s ⟨_, _, _, rfl⟩, State.respond_eq_next_iff] at h
  obtain ⟨r, rfl, rfl⟩ := h
  exact ⟨r, rfl, ho _ ⟨_, _, _, rfl⟩⟩

/-- Settles O52: each of the three is a read at the block, failed or not, and an answer leaves the block as it is. -/
theorem readsHaveNoSideEffect : Obligations.ReadsHaveNoSideEffect := by
  rintro i s t (⟨r, rfl⟩ | ⟨k, rfl⟩ | ⟨k, rfl⟩) hexec
  · exact (readsBlock_rds r s).answers_again hexec
  · exact (readsBlock_rdc k s).answers_again hexec
  · exact (readsBlock_rdd k s).answers_again hexec

end Sys2Proof.Machine
end

section
/-! PROOFS. Why a command fails: the cause of each status, and that a failure is answered exactly on its cause
(spec/60_exceptions.md R115 to R120). -/

namespace Sys2Proof.Machine

/-! ### The causes of the failures -/

/-- `Fails s i e`: in state `s` the command `i` has the cause that the rules give for the failure `e`. The checks that
come earlier in the command are passed (R74, R75, R115 to R120). -/
inductive Fails (s : State) : Instr → Status → Prop where
  | wrongState {i : Instr} {needed : LifeState} (hneeds : needs i = some needed) (hs : s.state ≠ needed) :
      Fails s i .eState
  | notPositive (hs : s.state = .uninitialized) (h : s32 s.len < 1 ∨ s32 s.factor < 1) : Fails s .init .eConfig
  | storeFull (v : Word) (hs : s.state = .uninitialized) (hfull : s.maxTaps ≤ s.cptr.toNat) :
      Fails s (.ldc v) .eResource
  | tooLong (hs : s.state = .uninitialized) (hlen : 1 ≤ s32 s.len) (hfactor : 1 ≤ s32 s.factor)
      (hlong : (s.maxTaps : Int) < s32 s.len) : Fails s .init .eResource
  | wrongCount (hs : s.state = .uninitialized) (hlen : 1 ≤ s32 s.len) (hfactor : 1 ≤ s32 s.factor)
      (hfits : s32 s.len ≤ s.maxTaps) (hcptr : (s.cptr.toNat : Int) ≠ s32 s.len) : Fails s .init .eArg
  | noRegister (r : Word) (hr : 6 ≤ r.toNat) : Fails s (.rds r) .eRange
  | noCoefficient (k : Word) (hk : s.cptr.toNat ≤ k.toNat) : Fails s (.rdc k) .eRange
  | noTap (k : Word) (hs : s.state = .ready) (hk : s.len.toNat ≤ k.toNat) : Fails s (.rdd k) .eRange
  | nanSample (x : Word) (hx : isNaN x = true) : Fails s (.qnt x) .eNan
  | nanOutput (b : Byte) (hs : s.state = .ready)
      (hloop : convSamples s.taps s.heldCoef s.factor (unpackByte b) ⟨s.delay, s.phase, []⟩ =
        .error (.raise .eNan)) :
      Fails s (.conv b) .eNan

/-! ### A cause is answered with its status -/

/-- The state check comes first in every command that has one (R75, R115). -/
theorem exec_of_wrongState {i : Instr} {s : State} {needed : LifeState} (hneeds : needs i = some needed)
    (hs : s.state ≠ needed) : exec i s = .next (s.answer .eState []) := by
  cases i with
  | clr | unpk | qnt | rds | rdc => simp [needs] at hneeds
  | setlen | setfac | ldc | init | apply | dsync | dec | conv | rdd =>
    obtain rfl := Option.some.inj hneeds
    exact if_pos hs

theorem exec_ldc_of_full (v : Word) {s : State} (hs : s.state = .uninitialized) (hfull : s.maxTaps ≤ s.cptr.toNat) :
    exec (.ldc v) s = .next (s.answer .eResource []) := by
  simp [exec, execLdc, hs, hfull, State.fail]

theorem exec_conv_of_stop {b : Byte} {s : State} {e : Stop} (hs : s.state = .ready)
    (hloop : convSamples s.taps s.heldCoef s.factor (unpackByte b) ⟨s.delay, s.phase, []⟩ = .error e) :
    exec (.conv b) s = s.stop e := by
  simp [exec, execConv, hs, hloop]

/-- The two checks of R116 answer the same, whichever of the staged values is below 1. -/
theorem exec_init_of_not_positive {s : State} (hs : s.state = .uninitialized)
    (h : s32 s.len < 1 ∨ s32 s.factor < 1) : exec .init s = .next (s.answer .eConfig []) := by
  rw [exec_init_of_uninitialized hs]
  split
  · rfl
  · next hlen => rw [if_pos (h.resolve_left hlen)]

theorem Fails.exec_eq {i : Instr} {s : State} {e : Status} (h : Fails s i e) : exec i s = .next (s.answer e []) := by
  obtain ⟨-, -, -, htooLong, hwrongCount⟩ := initChecksInOrder s
  cases h with
  | wrongState hneeds hs => exact exec_of_wrongState hneeds hs
  | notPositive hs h => exact exec_init_of_not_positive hs h
  | storeFull v hs hfull => exact exec_ldc_of_full v hs hfull
  | tooLong hs hlen hfactor hlong => exact htooLong hs hlen hfactor hlong
  | wrongCount hs hlen hfactor hfits hcptr => exact hwrongCount hs hlen hfactor hfits hcptr
  | noRegister r hr => exact exec_rds_of_none ((s.statusRegister_eq_none_iff r.toNat).mpr hr)
  | noCoefficient k hk => exact exec_rdc_of_le hk
  | noTap k hs hk => exact exec_rdd_of_le hs hk
  | nanSample x hx => exact (qntRefusesExactlyTheNaNs x s).mpr hx
  | nanOutput b hs hloop => exact exec_conv_of_stop hs hloop

/-! ### A failure is answered on its cause only -/

/-- The ends of a command, a failure with its cause. `Ends` tells the failures from the rest, but not from each
other. -/
inductive EndsByCause (i : Instr) (s : State) : Result → Prop where
  | failed {e : Status} (hcause : Fails s i e) : EndsByCause i s (s.fail e)
  | done (u : State) (data : List Word) : EndsByCause i s (u.done data)
  | fault (f : Fault) : EndsByCause i s (.fault f)

/-- What every command that needs a state starts with (R75). -/
theorem EndsByCause.stateCheck {i : Instr} {s : State} {needed : LifeState} {r : Result}
    (hneeds : needs i = some needed) (hr : s.state = needed → EndsByCause i s r) :
    EndsByCause i s (if s.state ≠ needed then s.fail .eState else r) := by
  split
  · next hs => exact .failed (.wrongState hneeds hs)
  · next hs => exact hr (not_not.mp hs)

theorem execLdc_endsByCause (v : Word) (s : State) : EndsByCause (.ldc v) s (execLdc v s) := by
  refine .stateCheck rfl fun hs => ?_
  split
  · next hfull => exact .failed (.storeFull v hs hfull)
  · exact .done _ _

theorem execInit_endsByCause (s : State) : EndsByCause .init s (execInit s) := by
  refine .stateCheck rfl fun hs => ?_
  split
  · next hlen => exact .failed (.notPositive hs (.inl hlen))
  next hlen =>
  split
  · next hfactor => exact .failed (.notPositive hs (.inr hfactor))
  next hfactor =>
  split
  · next hlong => exact .failed (.tooLong hs (not_lt.mp hlen) (not_lt.mp hfactor) hlong)
  next hfits =>
  split
  · next hcptr => exact .failed (.wrongCount hs (not_lt.mp hlen) (not_lt.mp hfactor) (not_lt.mp hfits) hcptr)
  · exact .done _ _

theorem execApply_endsByCause (x : Word) (s : State) : EndsByCause (.apply x) s (execApply x s) := by
  refine .stateCheck rfl fun _ => ?_
  split
  · exact .fault _
  · next d y _ =>
    obtain ⟨w, n, hemit, -⟩ := State.emitFloat_eq { s with delay := d } y
    exact hemit ▸ .done _ _

theorem execDec_endsByCause (x : Word) (s : State) : EndsByCause (.dec x) s (execDec x s) := by
  refine .stateCheck rfl fun _ => ?_
  split <;> exact .done _ _

theorem execQnt_endsByCause (x : Word) (s : State) : EndsByCause (.qnt x) s (execQnt x s) := by
  unfold execQnt
  split
  · next hnone => exact .failed (.nanSample x ((quantize_eq_none_iff x).mp hnone))
  · exact .done _ _

theorem execConv_endsByCause (b : Byte) (s : State) : EndsByCause (.conv b) s (execConv b s) := by
  refine .stateCheck rfl fun hs => ?_
  split
  · next e he =>
    rcases convSamples_eq_error he with rfl | rfl
    · exact .fault _
    · exact .failed (.nanOutput b hs he)
  · exact .done _ _

theorem execRds_endsByCause (r : Word) (s : State) : EndsByCause (.rds r) s (execRds r s) := by
  unfold execRds
  split
  · next hnone => exact .failed (.noRegister r ((s.statusRegister_eq_none_iff _).mp hnone))
  · exact .done _ _

theorem execRdc_endsByCause (k : Word) (s : State) : EndsByCause (.rdc k) s (execRdc k s) := by
  unfold execRdc
  split
  · next hk => exact .failed (.noCoefficient k hk)
  · split
    · exact .fault _
    · exact .done _ _

theorem execRdd_endsByCause (k : Word) (s : State) : EndsByCause (.rdd k) s (execRdd k s) := by
  refine .stateCheck rfl fun hs => ?_
  split
  · next hk => exact .failed (.noTap k hs hk)
  · split
    · exact .fault _
    · exact .done _ _

theorem exec_endsByCause (i : Instr) (s : State) : EndsByCause i s (exec i s) := by
  cases i with
  | clr => exact .done _ _
  | setlen n => exact .stateCheck rfl fun _ => .done _ _
  | setfac n => exact .stateCheck rfl fun _ => .done _ _
  | ldc v => exact execLdc_endsByCause v s
  | init => exact execInit_endsByCause s
  | apply x => exact execApply_endsByCause x s
  | unpk b => exact .done _ _
  | dsync => exact .stateCheck rfl fun _ => .done _ _
  | dec x => exact execDec_endsByCause x s
  | qnt x => exact execQnt_endsByCause x s
  | conv b => exact execConv_endsByCause b s
  | rds r => exact execRds_endsByCause r s
  | rdc k => exact execRdc_endsByCause k s
  | rdd k => exact execRdd_endsByCause k s

/-- A command answered with a status other than `OK` has the cause of that status, and changes nothing (R18). -/
theorem fails_of_lastStatus {i : Instr} {s t : State} {e : Status} (he : e ≠ .ok) (h : exec i s = .next t)
    (hstatus : t.lastStatus = some e) : Fails s i e ∧ t = s.answer e [] := by
  have hends := exec_endsByCause i s
  rw [h] at hends
  cases hends with
  | failed hcause =>
    obtain rfl := Option.some.inj ((s.answer_lastStatus _ []).symm.trans hstatus)
    exact ⟨hcause, rfl⟩
  | done u data => exact absurd (Option.some.inj ((u.answer_lastStatus .ok data).symm.trans hstatus)).symm he

/-- A failure is answered exactly on its cause. -/
theorem exec_eq_answer_iff {i : Instr} {s : State} {e : Status} (he : e ≠ .ok) :
    exec i s = .next (s.answer e []) ↔ Fails s i e :=
  ⟨fun h => (fails_of_lastStatus he h (s.answer_lastStatus e [])).1, Fails.exec_eq⟩

/-! ### The causes of each status -/

/-- Settles O15: the state check comes first, and no other check answers `E_STATE`. -/
theorem wrongStateIsAnsweredWithEState : Obligations.WrongStateIsAnsweredWithEState := by
  refine ⟨fun i s needed => exec_of_wrongState, fun i s t hexec hstatus => ?_⟩
  cases (fails_of_lastStatus (by decide) hexec hstatus).1 with
  | wrongState hneeds hs => exact ⟨_, hneeds, hs⟩

theorem fails_eConfig_iff {i : Instr} {s : State} : Fails s i .eConfig ↔
    i = .init ∧ s.state = .uninitialized ∧ (s32 s.len < 1 ∨ s32 s.factor < 1) := by
  constructor
  · intro h
    cases h with
    | notPositive hs h => exact ⟨rfl, hs, h⟩
  · rintro ⟨rfl, hs, h⟩
    exact .notPositive hs h

theorem fails_eResource_iff {i : Instr} {s : State} : Fails s i .eResource ↔
    (∃ v, i = .ldc v) ∧ s.state = .uninitialized ∧ s.maxTaps ≤ s.cptr.toNat ∨
      i = .init ∧ s.state = .uninitialized ∧ 1 ≤ s32 s.len ∧ 1 ≤ s32 s.factor ∧ s.maxTaps < s32 s.len := by
  constructor
  · intro h
    cases h with
    | storeFull v hs hfull => exact .inl ⟨⟨v, rfl⟩, hs, hfull⟩
    | tooLong hs hlen hfactor hlong => exact .inr ⟨rfl, hs, hlen, hfactor, hlong⟩
  · rintro (⟨⟨v, rfl⟩, hs, hfull⟩ | ⟨rfl, hs, hlen, hfactor, hlong⟩)
    · exact .storeFull v hs hfull
    · exact .tooLong hs hlen hfactor hlong

theorem fails_eArg_iff {i : Instr} {s : State} : Fails s i .eArg ↔
    i = .init ∧ s.state = .uninitialized ∧ 1 ≤ s32 s.len ∧ 1 ≤ s32 s.factor ∧ s32 s.len ≤ s.maxTaps ∧
      (s.cptr.toNat : Int) ≠ s32 s.len := by
  constructor
  · intro h
    cases h with
    | wrongCount hs hlen hfactor hfits hcptr => exact ⟨rfl, hs, hlen, hfactor, hfits, hcptr⟩
  · rintro ⟨rfl, hs, hlen, hfactor, hfits, hcptr⟩
    exact .wrongCount hs hlen hfactor hfits hcptr

theorem fails_eRange_iff {i : Instr} {s : State} : Fails s i .eRange ↔
    (∃ r : Word, i = .rds r ∧ 6 ≤ r.toNat) ∨ (∃ k : Word, i = .rdc k ∧ s.cptr.toNat ≤ k.toNat) ∨
      ∃ k : Word, i = .rdd k ∧ s.state = .ready ∧ s.len.toNat ≤ k.toNat := by
  constructor
  · intro h
    cases h with
    | noRegister r hr => exact .inl ⟨r, rfl, hr⟩
    | noCoefficient k hk => exact .inr (.inl ⟨k, rfl, hk⟩)
    | noTap k hs hk => exact .inr (.inr ⟨k, rfl, hs, hk⟩)
  · rintro (⟨r, rfl, hr⟩ | ⟨k, rfl, hk⟩ | ⟨k, rfl, hs, hk⟩)
    · exact .noRegister r hr
    · exact .noCoefficient k hk
    · exact .noTap k hs hk

/-- Settles O25: a failure is answered exactly on its cause, and in the state after it RDS still reads the staged
values. -/
theorem configurationFailuresHaveExactlyTheirCauses : Obligations.ConfigurationFailuresHaveExactlyTheirCauses := by
  refine fun i s => ⟨(exec_eq_answer_iff (by decide)).trans fails_eConfig_iff,
    (exec_eq_answer_iff (by decide)).trans fails_eResource_iff,
    (exec_eq_answer_iff (by decide)).trans fails_eArg_iff, fun t hexec hmem => ?_⟩
  obtain ⟨e, he, hstatus⟩ : ∃ e, e ≠ .ok ∧ t.lastStatus = some e := by
    simp only [List.mem_cons, List.not_mem_nil, or_false] at hmem
    rcases hmem with h | h | h <;> exact ⟨_, by decide, h⟩
  obtain ⟨-, rfl⟩ := fails_of_lastStatus he hexec hstatus
  exact ⟨⟨e, rfl⟩, exec_rds_of_statusRegister rfl, exec_rds_of_statusRegister rfl⟩

/-- Settles O47: of the causes of a failure, two have the status `E_NAN`. -/
theorem onlyTheQuantizerAnswersENan : Obligations.OnlyTheQuantizerAnswersENan := by
  intro i s t hexec hstatus
  cases (fails_of_lastStatus (by decide) hexec hstatus).1 with
  | nanSample x hx => exact .inl ⟨x, rfl, hx⟩
  | nanOutput b hs _ => exact .inr ⟨⟨b, rfl⟩, hs⟩

/-- Settles O51: `E_RANGE` is answered exactly on its causes, one for each read command. -/
theorem rangeFailuresHaveExactlyTheirCauses : Obligations.RangeFailuresHaveExactlyTheirCauses := fun _ _ =>
  (exec_eq_answer_iff (by decide)).trans fails_eRange_iff

end Sys2Proof.Machine
end

section
/-! PROOFS. The two steps in which no command is presented: a hard reset, and nothing at all
(spec/70_reset_and_hazards.md R128, R141). -/

namespace Sys2Proof.Machine

/-- A hard reset writes every register and store of the block, and on the host's side only takes itself off what is to
come: no response is given, and `MAXTAPS` is kept (R128). -/
theorem State.hardReset_eq {s : State} {rest : List HostEvent} (h : s.pending = .hardReset :: rest) :
    s.hardReset = { s with state := .uninitialized, len := 0, factor := 0, cptr := 0, phase := 0, coef := [],
                           delay := [], pending := rest } := by
  have htail : s.pending.tail = rest := by rw [h, List.tail_cons]
  rw [State.hardReset, htail, State.clearBlock]

/-- Settles O7: a presented hard reset is the step, and `State.hardReset_eq` says what it writes. -/
theorem hardResetClearsTheBlock : Obligations.HardResetClearsTheBlock := fun s rest h => by
  rw [step_of_hardReset h, State.hardReset_eq h]

/-- Settles O8: of the cases of a step, the empty list of the host selects the one that keeps the state. -/
theorem withoutACommandTheBlockHoldsItsState : Obligations.WithoutACommandTheBlockHoldsItsState := by
  intro s hpending
  simp [step, hpending]

end Sys2Proof.Machine
end
